-- ==== Sys2Proof/Word.lean ====
section
/-! DEFINITION. The word types of the core: bytes, 16-bit words, 12-bit addresses, and the indexes of registers and keys. -/

namespace Sys2Proof

/-- A byte: a general register, a timer, a memory cell (00_scope.md R7: unsigned, wraps modulo 256). -/
abbrev Byte := BitVec 8

/-- A 16-bit word: an instruction word, `I`, `PC`, a return address (00_scope.md R2). -/
abbrev Word := BitVec 16

/-- The 12-bit immediate address `NNN` (30_encoding.md R74). -/
abbrev Addr := BitVec 12

/-- A register number, 0 to 15 (30_encoding.md R74: every value is a valid register number). -/
abbrev Reg := Fin 16

/-- A key index, 0 to 15 (10_state.md R30). -/
abbrev Key := Fin 16

/-- VF, register 15: a general register and the flag (10_state.md R21). -/
abbrev VF : Reg := 15

end Sys2Proof
end

