-- ==== Sys2Proof/Config.lean ====
section
/-! DEFINITION. What is fixed for a run: the configuration the host gives at initialization, and the free random bytes. -/

namespace Sys2Proof

/-- The configuration of a run (00_scope.md R3; 30_encoding.md R80): set at reset, never changed afterwards.
DESIGN CHOICE (log 3): it stands in State as the field `cfg`, so that the one step function covers every configuration. -/
structure Config where
  /-- WIDTH, display columns (R3). -/
  width : Nat
  /-- HEIGHT, display rows (R3). -/
  height : Nat
  /-- IPS, instructions per second (R3, R4). -/
  ips : Nat
  /-- DECODE_ALIASES (R80; log 4). -/
  decodeAliases : Bool
deriving DecidableEq, Repr

namespace Config

/-- The defaults of 00_scope.md R3 and 30_encoding.md R80. -/
def default : Config where
  width := 64
  height := 32
  ips := 700
  decodeAliases := false

/-- The legal configurations: WIDTH and HEIGHT at least 1 (00_scope.md R3, the spec's decision D11; log 16). -/
def wf (c : Config) : Bool := decide (1 ≤ c.width) && decide (1 ≤ c.height)

/-- The random bytes `uniform_random_byte()` of `CXNN`: a FREE VALUE for each draw (00_scope.md R6, D15; log 5).
It has no body: nothing can evaluate it, so a claim holds whatever bytes are drawn. -/
opaque rnd : Nat → Byte

end Config
end Sys2Proof
end

