-- ==== Sys2Proof/Syntax.lean ====
section
/-! DEFINITION. The instructions: one constructor for each row of spec/opcode_table.json (30_encoding.md R76), the fallback row
UNMAPPED among them (R78). The comment of a constructor is its pattern. -/

namespace Sys2Proof

/-- An instruction. Register fields are `x` and `y`, immediates `n`, `nn` and `nnn` (30_encoding.md R73, R74). -/
inductive Instr where
  /-- `00E0` -/
  | cls
  /-- `00EE` -/
  | ret
  /-- `1NNN` -/
  | jp (nnn : Addr)
  /-- `2NNN` -/
  | call (nnn : Addr)
  /-- `3XNN` -/
  | seImm (x : Reg) (nn : Byte)
  /-- `4XNN` -/
  | sneImm (x : Reg) (nn : Byte)
  /-- `5XY0` -/
  | seReg (x y : Reg)
  /-- `6XNN` -/
  | ldImm (x : Reg) (nn : Byte)
  /-- `7XNN` -/
  | addImm (x : Reg) (nn : Byte)
  /-- `8XY0` -/
  | ldReg (x y : Reg)
  /-- `8XY1` -/
  | orReg (x y : Reg)
  /-- `8XY2` -/
  | andReg (x y : Reg)
  /-- `8XY3` -/
  | xorReg (x y : Reg)
  /-- `8XY4` -/
  | addReg (x y : Reg)
  /-- `8XY5` -/
  | sub (x y : Reg)
  /-- `8XY6`; the digit `y` is decoded and not used (R77) -/
  | shr (x y : Reg)
  /-- `8XY7` -/
  | subn (x y : Reg)
  /-- `8XYE`; the digit `y` is decoded and not used (R77) -/
  | shl (x y : Reg)
  /-- `9XY0` -/
  | sneReg (x y : Reg)
  /-- `ANNN` -/
  | ldI (nnn : Addr)
  /-- `BNNN` -/
  | jpV0 (nnn : Addr)
  /-- `CXNN` -/
  | rnd (x : Reg) (nn : Byte)
  /-- `DXYN` -/
  | drw (x y : Reg) (n : Fin 16)
  /-- `EX9E` -/
  | skp (x : Reg)
  /-- `EXA1` -/
  | sknp (x : Reg)
  /-- `FX07` -/
  | ldVxDt (x : Reg)
  /-- `FX0A` -/
  | ldVxK (x : Reg)
  /-- `FX15` -/
  | ldDtVx (x : Reg)
  /-- `FX18` -/
  | ldStVx (x : Reg)
  /-- `FX1E` -/
  | addI (x : Reg)
  /-- `FX29` -/
  | ldF (x : Reg)
  /-- `FX33` -/
  | ldB (x : Reg)
  /-- `FX55` -/
  | stRegs (x : Reg)
  /-- `FX65` -/
  | ldRegs (x : Reg)
  /-- any word that matches no row above (R78): the word itself, which the diagnostic reports -/
  | unmapped (word : Word)
deriving DecidableEq, Repr

namespace Instr

/-- The name of the instruction in the opcode map (30_encoding.md R76, first column; R82: the spec's own names). -/
def mnemonic : Instr → String
  | cls => "CLS"
  | ret => "RET"
  | jp _ => "JP"
  | call _ => "CALL"
  | seImm _ _ => "SE_IMM"
  | sneImm _ _ => "SNE_IMM"
  | seReg _ _ => "SE_REG"
  | ldImm _ _ => "LD_IMM"
  | addImm _ _ => "ADD_IMM"
  | ldReg _ _ => "LD_REG"
  | orReg _ _ => "OR"
  | andReg _ _ => "AND"
  | xorReg _ _ => "XOR"
  | addReg _ _ => "ADD_REG"
  | sub _ _ => "SUB"
  | shr _ _ => "SHR"
  | subn _ _ => "SUBN"
  | shl _ _ => "SHL"
  | sneReg _ _ => "SNE_REG"
  | ldI _ => "LD_I"
  | jpV0 _ => "JP_V0"
  | rnd _ _ => "RND"
  | drw _ _ _ => "DRW"
  | skp _ => "SKP"
  | sknp _ => "SKNP"
  | ldVxDt _ => "LD_VX_DT"
  | ldVxK _ => "LD_VX_K"
  | ldDtVx _ => "LD_DT_VX"
  | ldStVx _ => "LD_ST_VX"
  | addI _ => "ADD_I"
  | ldF _ => "LD_F"
  | ldB _ => "LD_B"
  | stRegs _ => "ST_REGS"
  | ldRegs _ => "LD_REGS"
  | unmapped _ => "UNMAPPED"

end Instr
end Sys2Proof
end

