-- ==== Sys2Proof/WellFormed.lean ====
section
/-! DEFINITION. The opcode map as mask and match (30_encoding.md R75, R76), and which instructions are well formed. The
decoder (Decode.lean) is written apart from this map, from the digits; that the two agree is a statement. -/

namespace Sys2Proof

/-- One row of the opcode map: a word `w` selects it when `w &&& mask = value` (30_encoding.md R75). -/
structure Row where
  mnemonic : String
  mask : Word
  value : Word
deriving DecidableEq, Repr

/-- The word selects the row. -/
def Row.selects (r : Row) (w : Word) : Bool := w &&& r.mask == r.value

/-- The 34 rows of 30_encoding.md R76, in the table's order. -/
def opcodeRows : List Row :=
  [
    ⟨"CLS", 0xFFFF, 0x00E0⟩,
    ⟨"RET", 0xFFFF, 0x00EE⟩,
    ⟨"JP", 0xF000, 0x1000⟩,
    ⟨"CALL", 0xF000, 0x2000⟩,
    ⟨"SE_IMM", 0xF000, 0x3000⟩,
    ⟨"SNE_IMM", 0xF000, 0x4000⟩,
    ⟨"SE_REG", 0xF00F, 0x5000⟩,
    ⟨"LD_IMM", 0xF000, 0x6000⟩,
    ⟨"ADD_IMM", 0xF000, 0x7000⟩,
    ⟨"LD_REG", 0xF00F, 0x8000⟩,
    ⟨"OR", 0xF00F, 0x8001⟩,
    ⟨"AND", 0xF00F, 0x8002⟩ ] ++
  [
    ⟨"XOR", 0xF00F, 0x8003⟩,
    ⟨"ADD_REG", 0xF00F, 0x8004⟩,
    ⟨"SUB", 0xF00F, 0x8005⟩,
    ⟨"SHR", 0xF00F, 0x8006⟩,
    ⟨"SUBN", 0xF00F, 0x8007⟩,
    ⟨"SHL", 0xF00F, 0x800E⟩,
    ⟨"SNE_REG", 0xF00F, 0x9000⟩,
    ⟨"LD_I", 0xF000, 0xA000⟩,
    ⟨"JP_V0", 0xF000, 0xB000⟩,
    ⟨"RND", 0xF000, 0xC000⟩,
    ⟨"DRW", 0xF000, 0xD000⟩,
    ⟨"SKP", 0xF0FF, 0xE09E⟩ ] ++
  [
    ⟨"SKNP", 0xF0FF, 0xE0A1⟩,
    ⟨"LD_VX_DT", 0xF0FF, 0xF007⟩,
    ⟨"LD_VX_K", 0xF0FF, 0xF00A⟩,
    ⟨"LD_DT_VX", 0xF0FF, 0xF015⟩,
    ⟨"LD_ST_VX", 0xF0FF, 0xF018⟩,
    ⟨"ADD_I", 0xF0FF, 0xF01E⟩,
    ⟨"LD_F", 0xF0FF, 0xF029⟩,
    ⟨"LD_B", 0xF0FF, 0xF033⟩,
    ⟨"ST_REGS", 0xF0FF, 0xF055⟩,
    ⟨"LD_REGS", 0xF0FF, 0xF065⟩ ]

/-- The mask of a row when DECODE_ALIASES is set: families 0, 5 and 9 check fewer digits (30_encoding.md R80; log 4). -/
def Row.aliased (r : Row) : Row :=
  if r.mnemonic = "CLS" ∨ r.mnemonic = "RET" then { r with mask := 0xF0FF }
  else if r.mnemonic = "SE_REG" ∨ r.mnemonic = "SNE_REG" then { r with mask := 0xF000 }
  else r

/-- The opcode map under either reading of the fixed digits (30_encoding.md R80). -/
def opcodeMap (aliases : Bool) : List Row :=
  if aliases then opcodeRows.map Row.aliased else opcodeRows

/-- The word matches no row (30_encoding.md R78). -/
def isUnmapped (aliases : Bool) (w : Word) : Bool := (opcodeMap aliases).all fun r => !r.selects w

/-- Well-formed instructions. The types bound every register number, immediate and count, so the one check left is that
UNMAPPED carries a word that matches no row of the map (30_encoding.md R74, R78). -/
def Instr.wf (aliases : Bool) : Instr → Bool
  | .unmapped w => isUnmapped aliases w
  | .cls | .ret | .jp _ | .call _ | .seImm _ _ | .sneImm _ _ | .seReg _ _ | .ldImm _ _ | .addImm _ _ | .ldReg _ _
  | .orReg _ _ | .andReg _ _ | .xorReg _ _ | .addReg _ _ | .sub _ _ | .shr _ _ | .subn _ _ | .shl _ _ | .sneReg _ _
  | .ldI _ | .jpV0 _ | .rnd _ _ | .drw _ _ _ | .skp _ | .sknp _ | .ldVxDt _ | .ldVxK _ | .ldDtVx _ | .ldStVx _
  | .addI _ | .ldF _ | .ldB _ | .stRegs _ | .ldRegs _ => true

end Sys2Proof
end

