-- ==== Sys2Proof/Decode.lean ====
section
/-! DEFINITION. The decoder, from the digits of the word (30_encoding.md R73, R75, R76, R78, R80), the encoder, and the
decoder over bytes in memory order (20_memory.md R53). -/

namespace Sys2Proof

/-- Digit `k` of an instruction word, digit 0 the least significant: `opcode[4k+3:4k]` (30_encoding.md R72, R73). -/
def digit (w : Word) (k : Nat) : Fin 16 := ⟨w.toNat / 16 ^ k % 16, Nat.mod_lt _ (by decide)⟩

/-- `X`, bits 11:8 (30_encoding.md R73). -/
def fieldX (w : Word) : Reg := digit w 2

/-- `Y`, bits 7:4 (30_encoding.md R73). -/
def fieldY (w : Word) : Reg := digit w 1

/-- `N`, bits 3:0 (30_encoding.md R73). -/
def fieldN (w : Word) : Fin 16 := digit w 0

/-- `NN`, bits 7:0 (30_encoding.md R73). -/
def fieldNN (w : Word) : Byte := w.setWidth 8

/-- `NNN`, bits 11:0 (30_encoding.md R73). -/
def fieldNNN (w : Word) : Addr := w.setWidth 12

/-- Family 0: `00E0` and `00EE`; their second digit is checked unless DECODE_ALIASES is set (30_encoding.md R76, R80). -/
def decode0 (aliases : Bool) (w : Word) : Instr :=
  if aliases || fieldX w == 0 then
    match (fieldNN w).toNat with
    | 0xE0 => .cls
    | 0xEE => .ret
    | _ => .unmapped w
  else .unmapped w

/-- Family 8, dispatched on `N` (30_encoding.md R75, R76). -/
def decode8 (w : Word) : Instr :=
  match (fieldN w).val with
  | 0x0 => .ldReg (fieldX w) (fieldY w)
  | 0x1 => .orReg (fieldX w) (fieldY w)
  | 0x2 => .andReg (fieldX w) (fieldY w)
  | 0x3 => .xorReg (fieldX w) (fieldY w)
  | 0x4 => .addReg (fieldX w) (fieldY w)
  | 0x5 => .sub (fieldX w) (fieldY w)
  | 0x6 => .shr (fieldX w) (fieldY w)
  | 0x7 => .subn (fieldX w) (fieldY w)
  | 0xE => .shl (fieldX w) (fieldY w)
  | _ => .unmapped w

/-- Family E, dispatched on `NN` (30_encoding.md R75, R76). -/
def decodeE (w : Word) : Instr :=
  match (fieldNN w).toNat with
  | 0x9E => .skp (fieldX w)
  | 0xA1 => .sknp (fieldX w)
  | _ => .unmapped w

/-- Family F, dispatched on `NN` (30_encoding.md R75, R76). -/
def decodeF (w : Word) : Instr :=
  match (fieldNN w).toNat with
  | 0x07 => .ldVxDt (fieldX w)
  | 0x0A => .ldVxK (fieldX w)
  | 0x15 => .ldDtVx (fieldX w)
  | 0x18 => .ldStVx (fieldX w)
  | 0x1E => .addI (fieldX w)
  | 0x29 => .ldF (fieldX w)
  | 0x33 => .ldB (fieldX w)
  | 0x55 => .stRegs (fieldX w)
  | 0x65 => .ldRegs (fieldX w)
  | _ => .unmapped w

/-- The decoder (30_encoding.md R75, R76, R78): total, every word has a meaning (R81). The last digit of families 5 and 9 is
checked unless DECODE_ALIASES is set (R80, the spec's D2; log 4). -/
def decode (aliases : Bool) (w : Word) : Instr :=
  match (digit w 3).val with
  | 0x0 => decode0 aliases w
  | 0x1 => .jp (fieldNNN w)
  | 0x2 => .call (fieldNNN w)
  | 0x3 => .seImm (fieldX w) (fieldNN w)
  | 0x4 => .sneImm (fieldX w) (fieldNN w)
  | 0x5 => if aliases || fieldN w == 0 then .seReg (fieldX w) (fieldY w) else .unmapped w
  | 0x6 => .ldImm (fieldX w) (fieldNN w)
  | 0x7 => .addImm (fieldX w) (fieldNN w)
  | 0x8 => decode8 w
  | 0x9 => if aliases || fieldN w == 0 then .sneReg (fieldX w) (fieldY w) else .unmapped w
  | 0xA => .ldI (fieldNNN w)
  | 0xB => .jpV0 (fieldNNN w)
  | 0xC => .rnd (fieldX w) (fieldNN w)
  | 0xD => .drw (fieldX w) (fieldY w) (fieldN w)
  | 0xE => decodeE w
  | _ => decodeF w

/-- The word at two bytes in memory order, the first in bits 15 to 8 (20_memory.md R53). -/
def wordOfBytes (high low : Byte) : Word := high ++ low

/-- Why bytes are no instruction: fewer than the two bytes every instruction has (30_encoding.md R70). -/
inductive DecodeError where
  | tooShort
deriving DecidableEq, Repr

/-- The decoder over bytes in memory order: the instruction and the bytes after it, or the reason there is none. -/
def decodeBytes (aliases : Bool) : List Byte → Except DecodeError (Instr × List Byte)
  | high :: low :: rest => .ok (decode aliases (wordOfBytes high low), rest)
  | [_] => .error .tooShort
  | [] => .error .tooShort

/-! ## The encoder -/

/-- The format NNN: opcode digit and address (30_encoding.md R72). -/
def encodeNNN (op : Nat) (nnn : Addr) : Word := BitVec.ofNat 16 (op * 0x1000 + nnn.toNat)

/-- The format XNN: opcode digit, register, byte (30_encoding.md R72). -/
def encodeXNN (op : Nat) (x : Reg) (nn : Byte) : Word := BitVec.ofNat 16 (op * 0x1000 + x.val * 0x100 + nn.toNat)

/-- The formats XY and XYN: opcode digit, two registers, last digit (30_encoding.md R72). -/
def encodeXYN (op : Nat) (x y : Reg) (n : Nat) : Word := BitVec.ofNat 16 (op * 0x1000 + x.val * 0x100 + y.val * 0x10 + n)

/-- The format X: opcode digit, register, two fixed digits (30_encoding.md R72). -/
def encodeX (op : Nat) (x : Reg) (low : Nat) : Word := BitVec.ofNat 16 (op * 0x1000 + x.val * 0x100 + low)

/-- The word of an instruction, from the patterns of 30_encoding.md R76. -/
def encode : Instr → Word
  | .cls => 0x00E0
  | .ret => 0x00EE
  | .jp nnn => encodeNNN 0x1 nnn
  | .call nnn => encodeNNN 0x2 nnn
  | .seImm x nn => encodeXNN 0x3 x nn
  | .sneImm x nn => encodeXNN 0x4 x nn
  | .seReg x y => encodeXYN 0x5 x y 0x0
  | .ldImm x nn => encodeXNN 0x6 x nn
  | .addImm x nn => encodeXNN 0x7 x nn
  | .ldReg x y => encodeXYN 0x8 x y 0x0
  | .orReg x y => encodeXYN 0x8 x y 0x1
  | .andReg x y => encodeXYN 0x8 x y 0x2
  | .xorReg x y => encodeXYN 0x8 x y 0x3
  | .addReg x y => encodeXYN 0x8 x y 0x4
  | .sub x y => encodeXYN 0x8 x y 0x5
  | .shr x y => encodeXYN 0x8 x y 0x6
  | .subn x y => encodeXYN 0x8 x y 0x7
  | .shl x y => encodeXYN 0x8 x y 0xE
  | .sneReg x y => encodeXYN 0x9 x y 0x0
  | .ldI nnn => encodeNNN 0xA nnn
  | .jpV0 nnn => encodeNNN 0xB nnn
  | .rnd x nn => encodeXNN 0xC x nn
  | .drw x y n => encodeXYN 0xD x y n.val
  | .skp x => encodeX 0xE x 0x9E
  | .sknp x => encodeX 0xE x 0xA1
  | .ldVxDt x => encodeX 0xF x 0x07
  | .ldVxK x => encodeX 0xF x 0x0A
  | .ldDtVx x => encodeX 0xF x 0x15
  | .ldStVx x => encodeX 0xF x 0x18
  | .addI x => encodeX 0xF x 0x1E
  | .ldF x => encodeX 0xF x 0x29
  | .ldB x => encodeX 0xF x 0x33
  | .stRegs x => encodeX 0xF x 0x55
  | .ldRegs x => encodeX 0xF x 0x65
  | .unmapped w => w

/-- The bytes of an instruction in memory order (20_memory.md R53). -/
def encodeBytes (i : Instr) : List Byte := [(encode i).extractLsb' 8 8, (encode i).setWidth 8]

/-- The word of an opcode-table row's bits: the `nbits` low bits of `w`, the rest 0. -/
def tableWord (nbits w : Nat) : Word := BitVec.ofNat 16 (w % 2 ^ nbits)

/-- What the decoder reads from an instruction whose bits are `w`, laid out as the core stores it (the default reading of
30_encoding.md R80). -/
def decodeTableWord (nbits w : Nat) : Option Instr :=
  let word := tableWord nbits w
  match decodeBytes Config.default.decodeAliases [word.extractLsb' 8 8, word.setWidth 8] with
  | .ok (i, _) => some i
  | .error _ => none

end Sys2Proof
end

