-- ==== Sys2Proof/Machine/State.lean ====
section
/-! DEFINITION. The state of the core as plain data (10_state.md), why a step can stop, and the state after reset. -/

namespace Sys2Proof.Machine

/-- Memory: (address, byte) pairs in one canonical form (`Memory.wf`): addresses strictly rising, and no entry equal to what an
unlisted address reads as (`Memory.unlisted`, the reset contents of 20_memory.md R51 without a program). -/
abbrev Memory := List Host.Cell

/-- The display buffer: rows from 0, each a list of columns from 0 (10_state.md R28). -/
abbrev Grid := List (List Bool)

/-- The five fatal errors (60_exceptions.md R201 to R204). -/
inductive ErrorKind where
  /-- code 1, R201 -/
  | fetchOutOfRange
  /-- code 2, R202 -/
  | stackOverflow
  /-- code 3, R203 -/
  | stackUnderflow
  /-- code 4, R204, the spec's decision D4 (log 9) -/
  | memOutOfRange
  /-- code 5, R204, the spec's decision D5 (log 10) -/
  | badKeyIndex
deriving DecidableEq, Repr

/-- The error record `(kind, opcode, addr)` of 60_exceptions.md R205; a fetch error has no opcode (R201). -/
structure FatalError where
  kind : ErrorKind
  opcode : Option Word
  addr : Word
deriving DecidableEq, Repr

/-- The fatal-error latch (10_state.md R32). -/
inductive Status where
  | running
  | halted (err : FatalError)
deriving DecidableEq, Repr

/-- The state of the FX0A machine (10_state.md R31). -/
inductive Wait where
  | idle
  | keyLatched (k : Key)
deriving DecidableEq, Repr

/-- The report of an unmapped word: the word and the address it was fetched from (30_encoding.md R78). -/
structure Diagnostic where
  opcode : Word
  addr : Word
deriving DecidableEq, Repr

/-- The atomic events of the three agents (60_exceptions.md R213). `reset` makes a new machine (70_reset_and_hazards.md R234),
so it is no event of a running one. -/
inductive Event where
  /-- one fetch-decode-execute cycle of the interpreter (30_encoding.md R71) -/
  | step
  /-- the timers' countdown (60_exceptions.md R211) -/
  | tick
  /-- the host writes a key flag (60_exceptions.md R216; log 19) -/
  | setKey (k : Key) (held : Bool)
  /-- the host acknowledges the display (60_exceptions.md R218) -/
  | ackDirty
deriving DecidableEq, Repr

/-- Why a step could stop with a fault. There is no such reason, so there is no constructor: each fatal error of the spec is
the NEXT state in which `status` is `halted` (60_exceptions.md R205; log 8), and every word has a meaning (30_encoding.md R81). -/
inductive Fault
deriving DecidableEq, Repr

/-- Why a step could be refused. -/
inductive Refusal where
  /-- raised by `exec` alone, for an instruction that has no meaning in the model yet; safe. No arm of `exec` raises it. -/
  | notModelled (mnemonic : String)
deriving DecidableEq, Repr

/-- The whole state of the core (10_state.md section 1). -/
structure State where
  /-- WIDTH, HEIGHT, IPS and DECODE_ALIASES: constants of a run (00_scope.md R3; log 3) -/
  cfg : Config
  /-- V0 to VF (R20, R21) -/
  v : Vector Byte 16
  /-- the index register I (R23) -/
  i : Word
  /-- the program counter PC (R22) -/
  pc : Word
  /-- SP, how many stack entries are in use, 0 to 16 (R24) -/
  sp : Fin 17
  /-- the call stack (R24) -/
  stack : Vector Word 16
  /-- the delay timer DT (R25) -/
  dt : Byte
  /-- the sound timer ST (R26) -/
  st : Byte
  /-- the 4096 bytes of memory (20_memory.md R50) -/
  mem : Memory
  /-- the display buffer (R28) -/
  disp : Grid
  /-- display written since the host's last acknowledge (R29) -/
  dirty : Bool
  /-- the keypad flags, written by the host (R30) -/
  keys : Vector Bool 16
  /-- the FX0A machine (R31) -/
  wait : Wait
  /-- the fatal-error latch (R32) -/
  status : Status
  /-- output of the last step: it set `dirty` (R33; log 7) -/
  displayChanged : Bool
  /-- output of the last step: it executed an unmapped word (R33; log 7) -/
  diagUnmapped : Option Diagnostic
  /-- the model's own: how many random bytes have been drawn (log 5) -/
  draws : Nat
  /-- the model's own: the events still to come, the next one first (log 6) -/
  schedule : List Event
deriving DecidableEq, Repr

/-- A display with every cell 0. -/
def blankGrid (c : Config) : Grid := List.replicate c.height (List.replicate c.width false)

/-- The machine right after reset with the default configuration and an empty program image (10_state.md R35). -/
def State.reset : State where
  cfg := Config.default
  v := Vector.replicate 16 0
  i := 0
  pc := 0x0200
  sp := 0
  stack := Vector.replicate 16 0
  dt := 0
  st := 0
  mem := []
  disp := blankGrid Config.default
  dirty := false
  keys := Vector.replicate 16 false
  wait := .idle
  status := .running
  displayChanged := false
  diagUnmapped := none
  draws := 0
  schedule := []

/-- The outcome of a meaning, of a cycle, of a step. -/
abbrev Result := Host.Outcome State Fault Refusal

end Sys2Proof.Machine
end

