-- ==== Sys2Proof/Machine/Memory.lean ====
section
/-! DEFINITION. Memory: what an address reads as, writes in canonical form, and the access primitives with their range check
(20_memory.md R50 to R60). -/

namespace Sys2Proof.Machine

/-- The glyphs 0 to 7 of the default font (20_memory.md R55). PRESUMED: the spec gives these bytes as general knowledge
(its G1, D10; log 1). -/
def fontLow : List Byte :=
  [0xF0, 0x90, 0x90, 0x90, 0xF0] ++ [0x20, 0x60, 0x20, 0x20, 0x70] ++ [0xF0, 0x10, 0xF0, 0x80, 0xF0] ++
  [0xF0, 0x10, 0xF0, 0x10, 0xF0] ++ [0x90, 0x90, 0xF0, 0x10, 0x10] ++ [0xF0, 0x80, 0xF0, 0x10, 0xF0] ++
  [0xF0, 0x80, 0xF0, 0x90, 0xF0] ++ [0xF0, 0x10, 0x20, 0x40, 0x40]

/-- The glyphs 8 to F of the default font (20_memory.md R55). PRESUMED (log 1). -/
def fontHigh : List Byte :=
  [0xF0, 0x90, 0xF0, 0x90, 0xF0] ++ [0xF0, 0x90, 0xF0, 0x10, 0xF0] ++ [0xF0, 0x90, 0xF0, 0x90, 0x90] ++
  [0xE0, 0x90, 0xE0, 0x90, 0xE0] ++ [0xF0, 0x80, 0x80, 0x80, 0xF0] ++ [0xE0, 0x90, 0x90, 0x90, 0xE0] ++
  [0xF0, 0x80, 0xF0, 0x80, 0xF0] ++ [0xF0, 0x80, 0xF0, 0x80, 0x80]

/-- The parameter FONT at its default: glyph `d` at bytes `5*d` to `5*d+4` (00_scope.md R5; 20_memory.md R55). -/
def defaultFont : List Byte := fontLow ++ fontHigh

/-- What an unlisted address reads as: the reset contents without a program, the font from 0x000 and zero after it
(20_memory.md R51; 10_state.md R35). -/
def Memory.unlisted (a : Nat) : Byte := defaultFont.getD a 0

/-- The byte at an address. For an address above 0xFFF, which no access that passes its range check reaches, it is 0 (log 17). -/
def Memory.read (m : Memory) (a : Nat) : Byte :=
  match m with
  | [] => Memory.unlisted a
  | (k, b) :: rest => if k = a then b else Memory.read rest a

/-- List the address with a byte, keeping the addresses rising. -/
def Memory.insert (m : Memory) (a : Nat) (b : Byte) : Memory :=
  match m with
  | [] => [(a, b)]
  | (k, c) :: rest =>
    if a < k then (a, b) :: (k, c) :: rest
    else if a = k then (a, b) :: rest
    else (k, c) :: Memory.insert rest a b

/-- Unlist the address. -/
def Memory.erase (m : Memory) (a : Nat) : Memory := m.filter fun e => e.1 ≠ a

/-- Write one byte, in canonical form. -/
def Memory.write (m : Memory) (a : Nat) (b : Byte) : Memory :=
  if b = Memory.unlisted a then m.erase a else m.insert a b

/-- Write bytes at rising addresses from `a`. -/
def Memory.store (m : Memory) (a : Nat) (bs : List Byte) : Memory :=
  match bs with
  | [] => m
  | b :: rest => Memory.store (m.write a b) (a + 1) rest

/-- The canonical form: addresses strictly rising and at most 0xFFF, no entry equal to what its address reads as unlisted. -/
def Memory.wf (m : Memory) : Bool :=
  decide (m.Pairwise fun e f => e.1 < f.1) && m.all fun e => decide (e.1 ≤ 0xFFF) && decide (e.2 ≠ Memory.unlisted e.1)

/-! ## The access primitives -/

/-- All of the `n` addresses from `a` exist (20_memory.md R57 to R59); no address at all always does. -/
def inRange (a n : Nat) : Bool := decide (n = 0) || decide (a + n - 1 ≤ 0xFFF)

/-- `MemRead(addr, 1)` (20_memory.md R57): none when out of range. -/
def Memory.readByte (m : Memory) (a : Nat) : Option Byte := if inRange a 1 then some (m.read a) else none

/-- `MemRead(addr, 2)`, big-endian (20_memory.md R57, R53): none when out of range. -/
def Memory.readWord (m : Memory) (a : Nat) : Option Word :=
  if inRange a 2 then some (wordOfBytes (m.read a) (m.read (a + 1))) else none

/-- `MemWrite(addr, 1, v)` (20_memory.md R58): none when out of range. -/
def Memory.writeByte (m : Memory) (a : Nat) (b : Byte) : Option Memory := if inRange a 1 then some (m.write a b) else none

/-- The `n` bytes from `a`, or none when one of them is out of range: the check covers the whole range an instruction would
touch and comes before any access (20_memory.md R59, the spec's D4; log 9). -/
def Memory.readBlock (m : Memory) (a n : Nat) : Option (List Byte) :=
  if inRange a n then some ((List.range n).map fun k => m.read (a + k)) else none

/-- Write a block of bytes from `a`, or none when one of them is out of range (20_memory.md R59, D4; log 9). -/
def Memory.writeBlock (m : Memory) (a : Nat) (bs : List Byte) : Option Memory :=
  if inRange a bs.length then some (m.store a bs) else none

end Sys2Proof.Machine
end

