-- ==== Sys2Proof/Machine/Ops.lean ====
section
/-! DEFINITION. The named operations over the registers, the stack, the display and the status, the raising of a fatal error among
them (60_exceptions.md R205). There is no return from an error (R210): only a new reset leaves the halted state. -/

namespace Sys2Proof.Machine

/-! ## Registers -/

/-- `V[r]` (10_state.md R20: no register is hardwired). -/
def State.reg (s : State) (r : Reg) : Byte := s.v.get r

/-- `V[r] <- b`. -/
def State.setReg (s : State) (r : Reg) (b : Byte) : State := { s with v := s.v.set r.val b r.isLt }

/-- `V[0], V[1], … <- bs`, as many as there are bytes: the loads of `FX65` (42_index_memory.md R155). -/
def State.setRegsFrom (s : State) (r : Nat) (bs : List Byte) : State :=
  match bs with
  | [] => s
  | b :: rest => State.setRegsFrom (if h : r < 16 then s.setReg ⟨r, h⟩ b else s) (r + 1) rest

/-- `I <- w` (10_state.md R23). -/
def State.setI (s : State) (w : Word) : State := { s with i := w }

/-- `PC <- w` (10_state.md R22). -/
def State.setPc (s : State) (w : Word) : State := { s with pc := w }

/-- `DT <- b` (10_state.md R25). -/
def State.setDt (s : State) (b : Byte) : State := { s with dt := b }

/-- `ST <- b` (10_state.md R26). -/
def State.setSt (s : State) (b : Byte) : State := { s with st := b }

/-- `mem <- m`. -/
def State.setMem (s : State) (m : Memory) : State := { s with mem := m }

/-- `wait <- w` (10_state.md R31). -/
def State.setWait (s : State) (w : Wait) : State := { s with wait := w }

/-! ## Program counter -/

/-- `PC <- PC + 2`: the increment of fetch (30_encoding.md R71), and a skip (40_control_flow.md). Modulo 65536, which no
reachable state shows (10_state.md R22, the spec's D23; log 14). -/
def State.advancePc (s : State) : State := s.setPc (s.pc + 2)

/-- `PC <- PC - 2`: the rewind of FX0A (44_keypad_timers.md R184). -/
def State.rewindPc (s : State) : State := s.setPc (s.pc - 2)

/-- The address of the instruction that executes, `PC - 2` (10_state.md R22). -/
def State.currentAddr (s : State) : Word := s.pc - 2

/-- Skip the next instruction if the condition holds (40_control_flow.md R103 to R106). -/
def State.skipIf (s : State) (cond : Bool) : State := if cond then s.advancePc else s

/-! ## Call stack -/

/-- Push `PC`: `stack[SP] <- PC`, then `SP <- SP + 1`; none when `SP = 16` (10_state.md R24; 40_control_flow.md R102; log 25). -/
def State.pushPc (s : State) : Option State :=
  if h : s.sp.val < 16 then some { s with stack := s.stack.set s.sp.val s.pc h, sp := ⟨s.sp.val + 1, by omega⟩ } else none

/-- Pop: `SP <- SP - 1`, then `PC <- stack[SP]`; none when `SP = 0`. The slot keeps its content (10_state.md R24;
40_control_flow.md R100; log 25). -/
def State.popPc (s : State) : Option State :=
  if h : 0 < s.sp.val then some { s with pc := s.stack.get ⟨s.sp.val - 1, by omega⟩, sp := ⟨s.sp.val - 1, by omega⟩ }
  else none

/-! ## Display -/

/-- The display after `00E0` or `DXYN`: the new grid, `dirty` set and `display_changed` raised (10_state.md R29, R33). -/
def State.showGrid (s : State) (d : Grid) : State := { s with disp := d, dirty := true, displayChanged := true }

/-! ## Outputs of a step -/

/-- The pulses as a step begins: both down (30_encoding.md R71). -/
def State.clearPulses (s : State) : State := { s with displayChanged := false, diagUnmapped := none }

/-- Raise `diag_unmapped(opcode, PC - 2)` (30_encoding.md R78; log 24). -/
def State.raiseDiag (s : State) (word : Word) : State := { s with diagUnmapped := some ⟨word, s.currentAddr⟩ }

/-! ## The random source -/

/-- The byte the next draw gives: a free value (00_scope.md R6; log 5). -/
def State.nextRnd (s : State) : Byte := Config.rnd s.draws

/-- One draw is consumed (41_alu.md R131). -/
def State.countDraw (s : State) : State := { s with draws := s.draws + 1 }

/-! ## Fatal errors -/

/-- The numeric codes of the kinds: labels of the spec (60_exceptions.md, the table under R204, D8). -/
def ErrorKind.code : ErrorKind → Nat
  | .fetchOutOfRange => 1
  | .stackOverflow => 2
  | .stackUnderflow => 3
  | .memOutOfRange => 4
  | .badKeyIndex => 5

/-- `raise Fatal(kind, opcode, addr)`: `status <- Halted(err)` and nothing else; the step ends (60_exceptions.md R205; log 8). -/
def State.raiseFatal (s : State) (kind : ErrorKind) (opcode : Option Word) (addr : Word) : State :=
  { s with status := .halted ⟨kind, opcode, addr⟩ }

/-- The errors of the execute phase: the record holds the instruction's word and `PC - 2` (60_exceptions.md R202 to R204). -/
def State.raiseExec (s : State) (kind : ErrorKind) (i : Instr) : State := s.raiseFatal kind (some (encode i)) s.currentAddr

end Sys2Proof.Machine
end

