-- ==== Sys2Proof/Machine/Flags.lean ====
section
/-! DEFINITION. The values VF takes as a flag (10_state.md R21), and the one operation that writes a flag and a result. -/

namespace Sys2Proof.Machine

/-- A flag as a byte: 0 or 1 (10_state.md R21). -/
def flagByte (b : Bool) : Byte := if b then 1 else 0

/-- Carry of `8XY4`: the sum is above 255 (41_alu.md R126). -/
def carryFlag (a b : Byte) : Byte := flagByte (decide (a.toNat + b.toNat > 255))

/-- The flag of `8XY5` and `8XY7`: the minuend is strictly above the subtrahend (41_alu.md R127, R129). -/
def noBorrowFlag (minuend subtrahend : Byte) : Byte := flagByte (decide (minuend.toNat > subtrahend.toNat))

/-- The bit shifted out by `8XY6`: old bit 0 (41_alu.md R128). -/
def lowBitFlag (a : Byte) : Byte := flagByte (a.getLsbD 0)

/-- The bit shifted out by `8XYE`: old bit 7 (41_alu.md R130). -/
def highBitFlag (a : Byte) : Byte := flagByte (a.getLsbD 7)

/-- Write the flag to VF first and the result to `V[X]` second, so that with `X = F` the result stays
(70_reset_and_hazards.md R240, the spec's D3; log 11). -/
def State.setFlagThenReg (s : State) (x : Reg) (flag result : Byte) : State := (s.setReg VF flag).setReg x result

end Sys2Proof.Machine
end

