-- ==== Sys2Proof/Machine/Alu.lean ====
section
/-! DEFINITION. Register load, arithmetic, logic, shift and random instructions (41_alu.md R120 to R133). All operands are read
before anything is written (70_reset_and_hazards.md R240). -/

namespace Sys2Proof.Machine

/-- `6XNN` (R120). -/
def execLdImm (x : Reg) (nn : Byte) (s : State) : Result := .next (s.setReg x nn)

/-- `7XNN` (R121): no carry is recorded. -/
def execAddImm (x : Reg) (nn : Byte) (s : State) : Result := .next (s.setReg x (s.reg x + nn))

/-- `8XY0` (R122). -/
def execLdReg (x y : Reg) (s : State) : Result := .next (s.setReg x (s.reg y))

/-- `8XY1` (R123): VF is not written. -/
def execOrReg (x y : Reg) (s : State) : Result := .next (s.setReg x (s.reg x ||| s.reg y))

/-- `8XY2` (R124): VF is not written. -/
def execAndReg (x y : Reg) (s : State) : Result := .next (s.setReg x (s.reg x &&& s.reg y))

/-- `8XY3` (R125): VF is not written. -/
def execXorReg (x y : Reg) (s : State) : Result := .next (s.setReg x (s.reg x ^^^ s.reg y))

/-- `8XY4` (R126). -/
def execAddReg (x y : Reg) (s : State) : Result :=
  .next (s.setFlagThenReg x (carryFlag (s.reg x) (s.reg y)) (s.reg x + s.reg y))

/-- `8XY5` (R127). -/
def execSub (x y : Reg) (s : State) : Result :=
  .next (s.setFlagThenReg x (noBorrowFlag (s.reg x) (s.reg y)) (s.reg x - s.reg y))

/-- `8XY6` (R128): the digit `y` is not used (30_encoding.md R77). -/
def execShr (x _y : Reg) (s : State) : Result := .next (s.setFlagThenReg x (lowBitFlag (s.reg x)) (s.reg x >>> 1))

/-- `8XY7` (R129). -/
def execSubn (x y : Reg) (s : State) : Result :=
  .next (s.setFlagThenReg x (noBorrowFlag (s.reg y) (s.reg x)) (s.reg y - s.reg x))

/-- `8XYE` (R130): the digit `y` is not used (30_encoding.md R77). -/
def execShl (x _y : Reg) (s : State) : Result := .next (s.setFlagThenReg x (highBitFlag (s.reg x)) (s.reg x <<< 1))

/-- `CXNN` (R131): a fresh free byte under the mask; one draw is consumed. -/
def execRnd (x : Reg) (nn : Byte) (s : State) : Result := .next ((s.setReg x (s.nextRnd &&& nn)).countDraw)

end Sys2Proof.Machine
end

