-- ==== Sys2Proof/Machine/Operands.lean ====
section
/-! DEFINITION. The operand forms: how immediates are widened, the indexed target, the data addresses, the register range, the
decimal digits and the key index (30_encoding.md R74; 42_index_memory.md R156). -/

namespace Sys2Proof.Machine

/-- `zext_16(NNN)` (30_encoding.md R74). -/
def addrOperand (nnn : Addr) : Word := nnn.setWidth 16

/-- `zext_16(b)` (00_scope.md section 5.2). -/
def byteOperand (b : Byte) : Word := b.setWidth 16

/-- The target of the indexed jump, `zext_16(NNN) + zext_16(V[0])`: not reduced to 12 bits (40_control_flow.md R107). -/
def indexedTarget (s : State) (nnn : Addr) : Word := addrOperand nnn + byteOperand (s.reg 0)

/-- The base of every data access: `I`, as a natural, with no wrap (20_memory.md R59; 42_index_memory.md R156). -/
def dataBase (s : State) : Nat := s.i.toNat

/-- `V[0]` to `V[X]`, the bytes `FX55` stores (42_index_memory.md R154). -/
def regsUpTo (s : State) (x : Reg) : List Byte := s.v.toList.take (x.val + 1)

/-- The decimal digits of a byte: hundreds, tens, ones (42_index_memory.md R153). -/
def decimalDigits (b : Byte) : List Byte :=
  [BitVec.ofNat 8 (b.toNat / 100), BitVec.ofNat 8 (b.toNat / 10 % 10), BitVec.ofNat 8 (b.toNat % 10)]

/-- The address of the glyph of a value, `V * 5`, of the whole byte (42_index_memory.md R152). -/
def glyphAddr (b : Byte) : Word := byteOperand b * 5

/-- A byte as a key index: none above 15, it is not masked (44_keypad_timers.md R183, the spec's D5; log 10). -/
def keyOperand (b : Byte) : Option Key := if h : b.toNat < 16 then some ⟨b.toNat, h⟩ else none

/-- `key[k]` (10_state.md R30). -/
def State.keyHeld (s : State) (k : Key) : Bool := s.keys.get k

/-- The lowest key that is held: the scan 0x0 to 0xF of FX0A (44_keypad_timers.md R184). -/
def lowestHeld (s : State) : Option Key := (List.finRange 16).find? s.keyHeld

end Sys2Proof.Machine
end

