-- ==== Sys2Proof/Machine/ControlFlow.lean ====
section
/-! DEFINITION. Control transfer and the unmapped no-op (40_control_flow.md R100 to R108). `PC` already holds the address after the
instruction. -/

namespace Sys2Proof.Machine

/-- `00EE` (R100): pop `PC`; with `SP = 0`, StackUnderflow (60_exceptions.md R203). -/
def execRet (s : State) : Result :=
  match s.popPc with
  | some t => .next t
  | none => .next (s.raiseExec .stackUnderflow .ret)

/-- `1NNN` (R101). -/
def execJp (nnn : Addr) (s : State) : Result := .next (s.setPc (addrOperand nnn))

/-- `2NNN` (R102): push `PC` and jump; with `SP = 16`, StackOverflow (60_exceptions.md R202). -/
def execCall (nnn : Addr) (s : State) : Result :=
  match s.pushPc with
  | some t => .next (t.setPc (addrOperand nnn))
  | none => .next (s.raiseExec .stackOverflow (.call nnn))

/-- `3XNN` (R103). -/
def execSeImm (x : Reg) (nn : Byte) (s : State) : Result := .next (s.skipIf (s.reg x == nn))

/-- `4XNN` (R104). -/
def execSneImm (x : Reg) (nn : Byte) (s : State) : Result := .next (s.skipIf (s.reg x != nn))

/-- `5XY0` (R105). -/
def execSeReg (x y : Reg) (s : State) : Result := .next (s.skipIf (s.reg x == s.reg y))

/-- `9XY0` (R106). -/
def execSneReg (x y : Reg) (s : State) : Result := .next (s.skipIf (s.reg x != s.reg y))

/-- `BNNN` (R107). -/
def execJpV0 (nnn : Addr) (s : State) : Result := .next (s.setPc (indexedTarget s nnn))

/-- An unmapped word (R108): nothing but the diagnostic. -/
def execUnmapped (word : Word) (s : State) : Result := .next (s.raiseDiag word)

end Sys2Proof.Machine
end

