-- ==== Sys2Proof/Machine/Display.lean ====
section
/-! DEFINITION. The raster engine and the display instructions (43_display.md R170, R171). -/

namespace Sys2Proof.Machine

/-- `disp[r][c]`; false outside the grid, which no instruction reads (log 18). -/
def pixelAt (d : Grid) (r c : Nat) : Bool := (d.getD r []).getD c false

/-- `disp[r][c] <- b`; nothing outside the grid, where no instruction writes (log 18). -/
def setPixel (d : Grid) (r c : Nat) (b : Bool) : Grid := d.set r ((d.getD r []).set c b)

/-- `disp[r][c]` of the state (10_state.md R28). -/
def State.pixel (s : State) (r c : Nat) : Bool := pixelAt s.disp r c

/-- The bits of a sprite byte, the most significant first (43_display.md R171 item 5). -/
def spriteBits (b : Byte) : List Bool := (List.range 8).map fun k => b.getLsbD (7 - k)

/-- A display and the collision seen so far. -/
abbrev Canvas := Grid × Bool

/-- One sprite bit at a cell: collision if the bit and the cell are both 1, then the cell is XORed (43_display.md R171 item 5). -/
def plot (r c : Nat) (bit : Bool) (canvas : Canvas) : Canvas :=
  (setPixel canvas.1 r c (pixelAt canvas.1 r c ^^ bit), canvas.2 || (bit && pixelAt canvas.1 r c))

/-- The bits of one sprite row from column `c` on; the row stops at the right edge (43_display.md R171 item 5). -/
def drawBits (width r c : Nat) (bits : List Bool) (canvas : Canvas) : Canvas :=
  match bits with
  | [] => canvas
  | bit :: rest => if width ≤ c then canvas else drawBits width r (c + 1) rest (plot r c bit canvas)

/-- The sprite rows from row `r` on, each from column `c` (43_display.md R171 item 5). -/
def drawRows (width c r : Nat) (rows : List Byte) (canvas : Canvas) : Canvas :=
  match rows with
  | [] => canvas
  | b :: rest => drawRows width c (r + 1) rest (drawBits width r c (spriteBits b) canvas)

/-- The start column, `V[X] mod WIDTH` (43_display.md R171 item 1). -/
def startColumn (s : State) (x : Reg) : Nat := (s.reg x).toNat % s.cfg.width

/-- The start row, `V[Y] mod HEIGHT` (43_display.md R171 item 1). -/
def startRow (s : State) (y : Reg) : Nat := (s.reg y).toNat % s.cfg.height

/-- The number of rows drawn, `min(N, HEIGHT - y0)` (43_display.md R171 item 2). -/
def rowsDrawn (s : State) (y : Reg) (n : Fin 16) : Nat := min n.val (s.cfg.height - startRow s y)

/-- `00E0` (R170). -/
def execCls (s : State) : Result := .next (s.showGrid (blankGrid s.cfg))

/-- `DXYN` (R171): coordinates are read first, the drawn rows are checked and read, then the display, VF and `dirty` are written
(the spec's D17; log 12). -/
def execDrw (x y : Reg) (n : Fin 16) (s : State) : Result :=
  match s.mem.readBlock (dataBase s) (rowsDrawn s y n) with
  | none => .next (s.raiseExec .memOutOfRange (.drw x y n))
  | some rows =>
    let canvas := drawRows s.cfg.width (startColumn s x) (startRow s y) rows (s.disp, false)
    .next ((s.showGrid canvas.1).setReg VF (flagByte canvas.2))

end Sys2Proof.Machine
end

