-- ==== Sys2Proof/Machine/IndexMemory.lean ====
section
/-! DEFINITION. Index register and memory transfer (42_index_memory.md R150 to R156). The three memory instructions check their
whole range before they transfer anything (20_memory.md R59). -/

namespace Sys2Proof.Machine

/-- `ANNN` (R150). -/
def execLdI (nnn : Addr) (s : State) : Result := .next (s.setI (addrOperand nnn))

/-- `FX1E` (R151): modulo 65536, no flag. -/
def execAddI (x : Reg) (s : State) : Result := .next (s.setI (s.i + byteOperand (s.reg x)))

/-- `FX29` (R152). -/
def execLdF (x : Reg) (s : State) : Result := .next (s.setI (glyphAddr (s.reg x)))

/-- `FX33` (R153). -/
def execLdB (x : Reg) (s : State) : Result :=
  match s.mem.writeBlock (dataBase s) (decimalDigits (s.reg x)) with
  | some m => .next (s.setMem m)
  | none => .next (s.raiseExec .memOutOfRange (.ldB x))

/-- `FX55` (R154). -/
def execStRegs (x : Reg) (s : State) : Result :=
  match s.mem.writeBlock (dataBase s) (regsUpTo s x) with
  | some m => .next (s.setMem m)
  | none => .next (s.raiseExec .memOutOfRange (.stRegs x))

/-- `FX65` (R155). -/
def execLdRegs (x : Reg) (s : State) : Result :=
  match s.mem.readBlock (dataBase s) (x.val + 1) with
  | some bs => .next (s.setRegsFrom 0 bs)
  | none => .next (s.raiseExec .memOutOfRange (.ldRegs x))

end Sys2Proof.Machine
end

