-- ==== Sys2Proof/Machine/KeypadTimers.lean ====
section
/-! DEFINITION. Keypad and timer instructions (44_keypad_timers.md R180 to R187). -/

namespace Sys2Proof.Machine

/-- `EX9E` (R180); a key index above 15 is fatal (R183). -/
def execSkp (x : Reg) (s : State) : Result :=
  match keyOperand (s.reg x) with
  | some k => .next (s.skipIf (s.keyHeld k))
  | none => .next (s.raiseExec .badKeyIndex (.skp x))

/-- `EXA1` (R181); a key index above 15 is fatal (R183). -/
def execSknp (x : Reg) (s : State) : Result :=
  match keyOperand (s.reg x) with
  | some k => .next (s.skipIf (!s.keyHeld k))
  | none => .next (s.raiseExec .badKeyIndex (.sknp x))

/-- `FX07` (R182). -/
def execLdVxDt (x : Reg) (s : State) : Result := .next (s.setReg x s.dt)

/-- `FX0A` (R184): the two-state machine `wait`; `PC` is rewound in each step but the one that sees the release (log 13). -/
def execLdVxK (x : Reg) (s : State) : Result :=
  match s.wait with
  | .idle =>
    match lowestHeld s with
    | some k => .next (s.setWait (.keyLatched k)).rewindPc
    | none => .next s.rewindPc
  | .keyLatched k =>
    if s.keyHeld k then .next s.rewindPc
    else .next ((s.setReg x (BitVec.ofNat 8 k.val)).setWait .idle)

/-- `FX15` (R185). -/
def execLdDtVx (x : Reg) (s : State) : Result := .next (s.setDt (s.reg x))

/-- `FX18` (R186). -/
def execLdStVx (x : Reg) (s : State) : Result := .next (s.setSt (s.reg x))

end Sys2Proof.Machine
end

