-- ==== Sys2Proof/Machine/Cycle.lean ====
section
/-! DEFINITION. One fetch-decode-execute cycle of the interpreter, the spec's `step()` (30_encoding.md R71; 20_memory.md R60). -/

namespace Sys2Proof.Machine

/-- The word at `PC`; none when `PC > 4094` (20_memory.md R60). -/
def fetchWord (s : State) : Option Word := s.mem.readWord s.pc.toNat

/-- The state the execute phase of a cycle begins in: pulses down, `PC` advanced (30_encoding.md R71). -/
def State.afterFetch (s : State) : State := s.clearPulses.advancePc

/-- One cycle (30_encoding.md R71). A halted core does nothing (60_exceptions.md R206); a fetch past 4094 is fatal and leaves
`PC` (60_exceptions.md R201). -/
def cycle (s : State) : Result :=
  match s.status with
  | .halted _ => .next s.clearPulses
  | .running =>
    match fetchWord s with
    | none => .next (s.clearPulses.raiseFatal .fetchOutOfRange none s.pc)
    | some w => exec (decode s.cfg.decodeAliases w) s.afterFetch

end Sys2Proof.Machine
end

