-- ==== Sys2Proof/Machine/Agents.lean ====
section
/-! DEFINITION. The events of the other agents, the outputs the host reads, and the order of events (60_exceptions.md R211 to R219). -/

namespace Sys2Proof.Machine

/-! ## The ticker and the host -/

/-- One timer down by one, a timer at 0 stays (60_exceptions.md R211). -/
def countDown (t : Byte) : Byte := if t = 0 then 0 else t - 1

/-- `tick()`: both timers; it runs in a halted core too (60_exceptions.md R211, R206; log 22). -/
def State.tick (s : State) : State := { s with dt := countDown s.dt, st := countDown s.st }

/-- `set_key(index, held)` (60_exceptions.md R216; log 19). -/
def State.setKey (s : State) (k : Key) (held : Bool) : State := { s with keys := s.keys.set k.val held k.isLt }

/-- `ack_dirty()` (60_exceptions.md R218). -/
def State.ackDirty (s : State) : State := { s with dirty := false }

/-! ## Outputs -/

/-- `tone = (ST > 0)` (60_exceptions.md R212; log 20). -/
def State.tone (s : State) : Bool := decide (0 < s.st.toNat)

/-- The display read port: the cells in row-major order (60_exceptions.md R217; 10_state.md R33). -/
def State.snapshot (s : State) : List Bool := s.disp.flatten

/-! ## The order of events -/

/-- The events of the state, without the next one. -/
def State.dropEvent (s : State) : State := { s with schedule := s.schedule.tail }

/-- The next event: the head of the schedule, and a cycle of the interpreter when nothing is scheduled (log 6). -/
def State.nextEvent (s : State) : Event := s.schedule.headD .step

/-- One event, whole (60_exceptions.md R213). -/
def runEvent (e : Event) (s : State) : Result :=
  match e with
  | .step => cycle s
  | .tick => .next s.tick
  | .setKey k held => .next (s.setKey k held)
  | .ackDirty => .next s.ackDirty

/-! ## Placing a word where the next step fetches it -/

/-- The address the next cycle can fetch from: `PC`, or the entry address when `PC` is past 4094 (log 21). -/
def fetchablePc (s : State) : Word := if s.pc.toNat ≤ 4094 then s.pc else 0x0200

/-- The word stored at the fetch address of a running core with nothing scheduled, so that the next step runs it (log 21). -/
def placeWord (s : State) (w : Word) : State :=
  { s with
    pc := fetchablePc s
    mem := s.mem.store (fetchablePc s).toNat [w.extractLsb' 8 8, w.setWidth 8]
    status := .running
    schedule := [] }

end Sys2Proof.Machine
end

