-- ==== Sys2Proof/Machine/Step.lean ====
section
/-! DEFINITION. One step of the machine: the next event, whole (60_exceptions.md R213). -/

namespace Sys2Proof.Machine

/-- One step: the next event of the schedule; a cycle of the interpreter (30_encoding.md R71) when nothing is scheduled (log 6). -/
def step (s : State) : Host.Outcome State Fault Refusal := runEvent s.nextEvent s.dropEvent

/-- The state with an instruction's bits stored where step fetches its next instruction (log 15, 21). -/
def State.withFetchWord (s : State) (nbits w : Nat) : State := placeWord s (tableWord nbits w)

end Sys2Proof.Machine
end

