-- ==== Sys2Proof/Machine/Boot.lean ====
section
/-! DEFINITION. Reset with a configuration, a font and a program image (70_reset_and_hazards.md R230 to R234; 10_state.md R35). -/

namespace Sys2Proof.Machine

/-- Why a reset yields no machine. -/
inductive LoadError where
  /-- the image is longer than 3584 bytes (70_reset_and_hazards.md R233) -/
  | imageTooLong
  /-- WIDTH or HEIGHT is 0 (00_scope.md R3, the spec's D11; log 16) -/
  | badGeometry
deriving DecidableEq, Repr

/-- `ENTRY`, where the first byte of the image goes and `PC` starts (00_scope.md R2). -/
def entryAddr : Nat := 0x200

/-- `MAX_PROG`, the longest image (00_scope.md R2). -/
def maxProg : Nat := 3584

/-- The default font as the parameter FONT (20_memory.md R55; log 1). -/
def fontParameter : Vector Byte 80 := ⟨defaultFont.toArray, by decide⟩

/-- The memory after reset: the font at 0x000, the image at 0x200, zero elsewhere (10_state.md R35; 70_reset_and_hazards.md R231). -/
def bootMemory (font : Vector Byte 80) (prog : List Byte) : Memory :=
  (Memory.store [] 0 font.toList).store entryAddr prog

/-- `reset(width, height, ips, prog)` with the parameters FONT and DECODE_ALIASES (70_reset_and_hazards.md R230): a new machine, or
none at all (R233, R234; log 15, 16). -/
def boot (c : Config) (font : Vector Byte 80) (prog : List Byte) : Except LoadError State :=
  if !c.wf then .error .badGeometry
  else if maxProg < prog.length then .error .imageTooLong
  else .ok { State.reset with cfg := c, mem := bootMemory font prog, disp := blankGrid c }

end Sys2Proof.Machine
end

