-- ==== Sys2Proof/Machine/Frame.lean ====
section
/-! DEFINITION. The frame: the normative order of events (60_exceptions.md R214; 00_scope.md R4). -/

namespace Sys2Proof.Machine

/-- IPF, instructions per frame: `max(1, floor(IPS / 60))` (00_scope.md R4). -/
def instructionsPerFrame (c : Config) : Nat := max 1 (c.ips / 60)

/-- The keypad snapshot delivered, `set_key(k, keys[k])` for k from 0 to 15 (60_exceptions.md R214 (a)). -/
def State.setKeys (s : State) (keys : Vector Bool 16) : State :=
  (List.finRange 16).foldl (fun t k => t.setKey k (keys.get k)) s

/-- A number of cycles (60_exceptions.md R214 (c)). -/
def runCycles (n : Nat) (s : State) : Result :=
  match n with
  | 0 => .next s
  | k + 1 =>
    match cycle s with
    | .next t => runCycles k t
    | .fault f => .fault f
    | .refused r => .refused r

/-- A frame up to the hand-off: keys, IPF cycles, one tick (60_exceptions.md R214 (a) to (d)). -/
def frame (keys : Vector Bool 16) (s : State) : Result :=
  match runCycles (instructionsPerFrame s.cfg) (s.setKeys keys) with
  | .next t => .next t.tick
  | .fault f => .fault f
  | .refused r => .refused r

/-- What the host samples at the hand-off of a frame (60_exceptions.md R214 (e)): the display only when it is dirty. -/
structure HandOff where
  tone : Bool
  dirty : Bool
  status : Status
  display : Option (List Bool)
deriving DecidableEq, Repr

/-- The hand-off: what the host samples, and the state after its acknowledge (60_exceptions.md R214 (e), R217, R218). -/
def handOff (s : State) : HandOff × State :=
  (⟨s.tone, s.dirty, s.status, if s.dirty then some s.snapshot else none⟩, if s.dirty then s.ackDirty else s)

/-- The events of one frame up to the hand-off, in order (60_exceptions.md R214 (a) to (d)). -/
def frameEvents (c : Config) (keys : Vector Bool 16) : List Event :=
  (List.finRange 16).map (fun k => Event.setKey k (keys.get k)) ++ List.replicate (instructionsPerFrame c) Event.step ++
    [Event.tick]

/-- The normative schedule: whole frames, each with its keypad snapshot and its acknowledge (60_exceptions.md R214). -/
def frameSchedule (c : Config) (snapshots : List (Vector Bool 16)) : List Event :=
  snapshots.flatMap fun keys => frameEvents c keys ++ [Event.ackDirty]

end Sys2Proof.Machine
end

