-- ==== Sys2Proof/Safety.lean ====
section
/-! DEFINITION. What holds in every reachable state (10_state.md R36), and the terms claims about runs are made in: halted,
finished, the normative host. -/

namespace Sys2Proof.Machine

/-- The display has HEIGHT rows of WIDTH cells (10_state.md R28). -/
def State.gridWf (s : State) : Bool :=
  decide (s.disp.length = s.cfg.height) && s.disp.all fun row => decide (row.length = s.cfg.width)

/-- Every stack slot holds an address a call can push, at most 4096 (40_control_flow.md R100). -/
def State.stackWf (s : State) : Bool := s.stack.toList.all fun w => decide (w.toNat ≤ 0x1000)

/-- The bound of `PC` (10_state.md R22, R36). -/
def State.pcWf (s : State) : Bool := decide (s.pc.toNat ≤ 0x10FE)

/-- The core runs. -/
def State.running (s : State) : Bool := decide (s.status = .running)

/-- A word of the form `FX0A`. -/
def isKeyWait (w : Word) : Bool := w &&& 0xF0FF == 0xF00A

/-- While a key is latched the core runs and the word at `PC` is an `FX0A` (10_state.md R31, R36). -/
def State.waitWf (s : State) : Bool :=
  match s.wait with
  | .idle => true
  | .keyLatched _ => s.running && (fetchWord s).any isKeyWait

/-- The invariant of every reachable state (10_state.md R36), with the canonical form of memory and the shape of the display.
The bounds on SP, the timers and the registers are their types. -/
def State.inv (s : State) : Bool := s.cfg.wf && s.mem.wf && s.gridWf && s.stackWf && s.pcWf && s.waitWf

/-- A fatal error has been raised (60_exceptions.md R205): never a successful end (70_reset_and_hazards.md R247). -/
def State.isHalted (s : State) : Bool := !s.running

/-- A program has finished: the core runs and the word at `PC` is a jump to itself. The spec's convention for claims, not
behaviour of the core (70_reset_and_hazards.md R247, D21; log 23). -/
def State.finished (s : State) : Bool :=
  s.running && (fetchWord s).any fun w => decide (digit w 3 = 1) && decide ((fieldNNN w).toNat = s.pc.toNat)

/-- The host keeps the frame order from here on (60_exceptions.md R214). -/
def State.framed (s : State) : Prop := ∃ snapshots, s.schedule = frameSchedule s.cfg snapshots

end Sys2Proof.Machine
end

