-- ==== Sys2Proof/Certificates/Slice0/Obligations.lean ====
section
/-! DEFINITION. The statements about the core, for the provers. A statement of a next state gives the frame as an equation
`t = { s with f := t.f, … }`: every field but those named is as before, every byte of memory among them where `mem` is not named.
`s` is the state the execute phase begins in, where `PC` already holds the address after the instruction (30_encoding.md R71). -/

open Sys2Proof Sys2Proof.Machine

/-! ## Encoding and decoding -/

/-- Every well-formed instruction, with every operand at every value, is what its word decodes to, under either reading of the
fixed digits (30_encoding.md R73, R75, R76, R78, R80). -/
def Obligations.DecodeOfEncodeIsIdentity : Prop :=
  ∀ (aliases : Bool) (i : Instr), i.wf aliases = true → decode aliases (encode i) = i

/-- Every word decodes to a well-formed instruction, and under the default reading that instruction's word is the word: no word is
undefined and no bit of it is lost (30_encoding.md R74, R81). -/
def Obligations.EveryWordIsOneInstruction : Prop :=
  ∀ w : Word, (∀ aliases, (decode aliases w).wf aliases = true) ∧ encode (decode false w) = w

/-- The decoder selects by mask and match; no two rows match one word; a word that matches none is unmapped (30_encoding.md R75). -/
def Obligations.DecoderFollowsMaskAndMatch : Prop :=
  ∀ w : Word,
    (∀ r ∈ opcodeRows, w &&& r.mask = r.value → (decode false w).mnemonic = r.mnemonic) ∧
    (∀ r ∈ opcodeRows, ∀ q ∈ opcodeRows, w &&& r.mask = r.value → w &&& q.mask = q.value → r = q) ∧
    ((∀ r ∈ opcodeRows, w &&& r.mask ≠ r.value) → decode false w = .unmapped w)

/-- With DECODE_ALIASES the words of families 5 and 9 and the words `0XE0` and `0XEE` are the instructions of their family, and
nothing else changes (30_encoding.md R80, which rests on the spec's decision D2; log 4). -/
def Obligations.AliasesWidenFourInstructions : Prop :=
  ∀ w : Word, decode true w =
    if w.toNat / 4096 = 0 ∧ w.toNat % 256 = 0xE0 then .cls
    else if w.toNat / 4096 = 0 ∧ w.toNat % 256 = 0xEE then .ret
    else if w.toNat / 4096 = 5 then .seReg (fieldX w) (fieldY w)
    else if w.toNat / 4096 = 9 then .sneReg (fieldX w) (fieldY w)
    else decode false w

/-- The words that decode to no instruction are exactly the six families of 30_encoding.md R79. -/
def Obligations.UnmappedWordsAreTheSixFamilies : Prop :=
  ∀ w : Word, decode false w = .unmapped w ↔
    (w.toNat / 4096 = 0 ∧ w.toNat ≠ 0x00E0 ∧ w.toNat ≠ 0x00EE) ∨
    (w.toNat / 4096 = 5 ∧ w.toNat % 16 ≠ 0) ∨
    (w.toNat / 4096 = 8 ∧ w.toNat % 16 ∈ [0x8, 0x9, 0xA, 0xB, 0xC, 0xD, 0xF]) ∨
    (w.toNat / 4096 = 9 ∧ w.toNat % 16 ≠ 0) ∨
    (w.toNat / 4096 = 0xE ∧ w.toNat % 256 ≠ 0x9E ∧ w.toNat % 256 ≠ 0xA1) ∨
    (w.toNat / 4096 = 0xF ∧ w.toNat % 256 ∉ [0x07, 0x0A, 0x15, 0x18, 0x1E, 0x29, 0x33, 0x55, 0x65])

/-- The five fields are the bits the spec names, and the wide ones overlap the narrow ones (30_encoding.md R73). -/
def Obligations.FieldsAreTheNamedBits : Prop :=
  ∀ w : Word,
    digit w 3 = (w.extractLsb' 12 4).toNat ∧ fieldX w = (w.extractLsb' 8 4).toNat ∧
    fieldY w = (w.extractLsb' 4 4).toNat ∧ fieldN w = (w.extractLsb' 0 4).toNat ∧
    fieldNN w = w.extractLsb' 0 8 ∧ fieldNNN w = w.extractLsb' 0 12 ∧
    (fieldNN w).toNat = 16 * fieldY w + fieldN w ∧ (fieldNNN w).toNat = 256 * fieldX w + 16 * fieldY w + fieldN w

/-- Words written out from the patterns of 30_encoding.md R76 decode to the instructions they stand for. -/
def Obligations.SampleWordsDecode : Prop :=
  decode false 0x00EE = .ret ∧ decode false 0x1ABC = .jp 0xABC ∧ decode false 0x332A = .seImm 3 0x2A ∧
  decode false 0x8127 = .subn 1 2 ∧ decode false 0xD123 = .drw 1 2 3 ∧ decode false 0xE29E = .skp 2 ∧
  decode false 0xF30A = .ldVxK 3 ∧ decode false 0xF465 = .ldRegs 4 ∧ decode false 0x0123 = .unmapped 0x0123

/-! ## Memory -/

/-- The access primitives: a byte write changes its byte and no other, reads are of the bytes, two of them big-endian, and each is
out of range exactly when its last address is above 0xFFF (20_memory.md R57, R58). -/
def Obligations.MemoryPrimitives : Prop :=
  ∀ (m : Memory) (a : Nat) (b : Byte),
    (a ≤ 0xFFF → m.readByte a = some (m.read a) ∧
      ∃ m', m.writeByte a b = some m' ∧ m'.read a = b ∧ ∀ c, c ≠ a → m'.read c = m.read c) ∧
    (0xFFF < a → m.readByte a = none ∧ m.writeByte a b = none) ∧
    (a + 1 ≤ 0xFFF → ∃ w, m.readWord a = some w ∧ w.toNat = 256 * (m.read a).toNat + (m.read (a + 1)).toNat) ∧
    (0xFFF < a + 1 → m.readWord a = none)

/-- Memories in canonical form that read alike are equal data. The canonical form is the model's own (log 17). -/
def Obligations.CanonicalMemoriesReadingAlikeAreEqual : Prop :=
  ∀ m m' : Memory, m.wf = true → m'.wf = true → (∀ a, m.read a = m'.read a) → m = m'

/-! ## The step -/

/-- A step of a running core, with nothing scheduled or a cycle next, runs the instruction at `PC`: `PC` advances by 2 and the pulses
go down, then the instruction executes (30_encoding.md R71; 20_memory.md R60). The schedule is the model's own field (log 6), and that
the pulses are held in the state is too (log 7). -/
def Obligations.StepRunsTheDecodedInstruction : Prop :=
  ∀ s : State, s.status = .running → s.pc.toNat ≤ 4094 → (s.schedule = [] ∨ s.schedule.head? = some .step) →
    step s = exec (decode s.cfg.decodeAliases (wordOfBytes (s.mem.read s.pc.toNat) (s.mem.read (s.pc.toNat + 1))))
      { s with pc := s.pc + 2, displayChanged := false, diagUnmapped := none, schedule := s.schedule.tail }

/-- A fetch past 4094 is fatal: the record holds no opcode and `PC`, which is not incremented, the pulses are down, and nothing else
changes (60_exceptions.md R201; 20_memory.md R60; 30_encoding.md R71). The schedule whose head is consumed is the model's own field
(log 6), and that the pulses are held in the state is too (log 7). -/
def Obligations.FetchPastLastWordIsFatal : Prop :=
  ∀ s : State, s.status = .running → 4094 < s.pc.toNat → (s.schedule = [] ∨ s.schedule.head? = some .step) →
    step s = .next { s with
      status := .halted ⟨.fetchOutOfRange, none, s.pc⟩, displayChanged := false, diagUnmapped := none,
      schedule := s.schedule.tail }

/-- A halted core: a cycle does nothing, a tick still counts down, and whatever event comes, the error and the interpreter's state
stay (60_exceptions.md R206; 10_state.md R36). It rests on the spec's decision D7 (log 22); the schedule and the held pulses
are the model's own fields (log 6, 7). -/
def Obligations.HaltedCoreStaysHalted : Prop :=
  ∀ (s : State) (err : FatalError), s.status = .halted err →
    cycle s = .next { s with displayChanged := false, diagUnmapped := none } ∧
    (s.schedule.head? = some .tick → step s = .next { s with
      dt := if s.dt = 0 then 0 else s.dt - 1, st := if s.st = 0 then 0 else s.st - 1, schedule := s.schedule.tail }) ∧
    ∀ t, step s = .next t → t.status = .halted err ∧ t.v = s.v ∧ t.i = s.i ∧ t.pc = s.pc ∧ t.sp = s.sp ∧
      t.stack = s.stack ∧ t.mem = s.mem ∧ t.disp = s.disp ∧ t.wait = s.wait

/-- Every step of every state answers a next state: no word, no operand and no event stops the model (30_encoding.md R81;
60_exceptions.md R205). -/
def Obligations.EveryStepAnswers : Prop := ∀ s : State, ∃ t, step s = .next t

/-- The events of the ticker and the host, when they are next, happen whole and take their place in the order of events
(60_exceptions.md R213, R216, R218). The schedule is the model's own field (log 6). -/
def Obligations.ScheduledHostEventsHappen : Prop :=
  ∀ (s : State) (rest : List Event) (k : Key) (held : Bool),
    (s.schedule = .setKey k held :: rest → ∃ t, step s = .next t ∧ t.keyHeld k = held ∧
      (∀ j, j ≠ k → t.keyHeld j = s.keyHeld j) ∧ t = { s with keys := t.keys, schedule := rest }) ∧
    (s.schedule = .ackDirty :: rest → step s = .next { s with dirty := false, schedule := rest })

/-! ## Control transfer -/

/-- `00EE` pops `PC`; with an empty stack it raises StackUnderflow and changes nothing else (40_control_flow.md R100;
60_exceptions.md R203). -/
def Obligations.ReturnPopsOrUnderflows : Prop :=
  ∀ s : State,
    (∀ k, s.sp.val = k + 1 → ∃ t, exec .ret s = .next t ∧ t.sp.val = k ∧ some t.pc = s.stack[k]? ∧
      t = { s with pc := t.pc, sp := t.sp }) ∧
    (s.sp = 0 → exec .ret s = .next { s with status := .halted ⟨.stackUnderflow, some 0x00EE, s.pc - 2⟩ })

/-- `2NNN` pushes `PC` and jumps; with a full stack it raises StackOverflow and changes nothing else; of calls made one after
another on an empty stack, sixteen succeed and the seventeenth raises it (40_control_flow.md R102; 60_exceptions.md R202). -/
def Obligations.CallPushesOrOverflows : Prop :=
  (∀ (nnn : Addr) (s : State),
    (s.sp.val < 16 → ∃ t, exec (.call nnn) s = .next t ∧ t.sp.val = s.sp.val + 1 ∧ t.pc.toNat = nnn.toNat ∧
      t.stack[s.sp.val]? = some s.pc ∧ (∀ k, k ≠ s.sp.val → t.stack[k]? = s.stack[k]?) ∧
      t = { s with pc := t.pc, sp := t.sp, stack := t.stack }) ∧
    (s.sp = 16 → exec (.call nnn) s =
      .next { s with status := .halted ⟨.stackOverflow, some (BitVec.ofNat 16 (0x2000 + nnn.toNat)), s.pc - 2⟩ })) ∧
  ∀ (at' : Nat → State) (target : Nat → Addr), (at' 0).sp = 0 → (at' 0).status = .running →
    (∀ k, exec (.call (target k)) (at' k) = .next (at' (k + 1))) →
    (∀ k, k ≤ 16 → (at' k).sp.val = k ∧ (at' k).status = .running) ∧
    (at' 17).status = .halted ⟨.stackOverflow, some (BitVec.ofNat 16 (0x2000 + (target 16).toNat)), (at' 16).pc - 2⟩

/-- A return from the stack a call left goes to the address after the call, and `SP` is back (95_test_vectors.md S8). -/
def Obligations.ReturnAfterCallResumes : Prop :=
  ∀ (nnn : Addr) (s t u : State), s.sp.val < 16 → exec (.call nnn) s = .next t → u.stack = t.stack → u.sp = t.sp →
    ∃ r, exec .ret u = .next r ∧ r.pc = s.pc ∧ r.sp = s.sp

/-- `1NNN` sets `PC` to `NNN`, with no residue of fetch's increment, and changes nothing else (40_control_flow.md R101). -/
def Obligations.JumpGoesToItsTarget : Prop :=
  ∀ (nnn : Addr) (s : State), ∃ t, exec (.jp nnn) s = .next t ∧ t.pc.toNat = nnn.toNat ∧ t = { s with pc := t.pc }

/-- `3XNN` and `4XNN` skip when `VX` is, and is not, `NN`; they change nothing but `PC` (40_control_flow.md R103, R104). -/
def Obligations.ImmediateSkips : Prop :=
  ∀ (x : Reg) (nn : Byte) (s : State),
    (∃ t, exec (.seImm x nn) s = .next t ∧ t.pc = (if (s.reg x).toNat = nn.toNat then s.pc + 2 else s.pc) ∧
      t = { s with pc := t.pc }) ∧
    (∃ t, exec (.sneImm x nn) s = .next t ∧ t.pc = (if (s.reg x).toNat = nn.toNat then s.pc else s.pc + 2) ∧
      t = { s with pc := t.pc })

/-- `5XY0` and `9XY0` skip when `VX` is, and is not, `VY`; they change nothing but `PC` (40_control_flow.md R105, R106). -/
def Obligations.RegisterSkips : Prop :=
  ∀ (x y : Reg) (s : State),
    (∃ t, exec (.seReg x y) s = .next t ∧ t.pc = (if (s.reg x).toNat = (s.reg y).toNat then s.pc + 2 else s.pc) ∧
      t = { s with pc := t.pc }) ∧
    (∃ t, exec (.sneReg x y) s = .next t ∧ t.pc = (if (s.reg x).toNat = (s.reg y).toNat then s.pc else s.pc + 2) ∧
      t = { s with pc := t.pc })

/-- `BNNN` sets `PC` to `NNN + V0`, not reduced to 12 bits, and changes nothing else (40_control_flow.md R107, which the spec
derives). -/
def Obligations.IndexedJumpAddsV0 : Prop :=
  ∀ (nnn : Addr) (s : State), ∃ t, exec (.jpV0 nnn) s = .next t ∧ t.pc.toNat = nnn.toNat + (s.reg 0).toNat ∧
    t = { s with pc := t.pc }

/-- A word that matches no row of the map executes as a no-op: nothing changes beyond fetch's increment of `PC`, and the diagnostic
names the word and the address it was fetched from (40_control_flow.md R108). -/
def Obligations.UnmappedWordIsANoOp : Prop :=
  ∀ (w : Word) (s : State),
    (∃ t, exec (.unmapped w) s = .next t ∧ (∃ d, t.diagUnmapped = some d ∧ d.opcode = w ∧ d.addr + 2 = s.pc) ∧
      t = { s with diagUnmapped := t.diagUnmapped }) ∧
    ((∀ r ∈ opcodeRows, w &&& r.mask ≠ r.value) → decode false w = .unmapped w)

/-! ## Register load, arithmetic, logic, shift, random -/

/-- `6XNN` loads `NN` and `8XY0` copies `VY`; no other register and nothing else changes (41_alu.md R120, R122). -/
def Obligations.LoadsWriteOneRegister : Prop :=
  ∀ (x y : Reg) (nn : Byte) (s : State),
    (∃ t, exec (.ldImm x nn) s = .next t ∧ t.reg x = nn ∧ (∀ r, r ≠ x → t.reg r = s.reg r) ∧ t = { s with v := t.v }) ∧
    (∃ t, exec (.ldReg x y) s = .next t ∧ t.reg x = s.reg y ∧ (∀ r, r ≠ x → t.reg r = s.reg r) ∧ t = { s with v := t.v })

/-- `7XNN` adds modulo 256 and records no carry: no other register, VF among them, and nothing else changes (41_alu.md R121). -/
def Obligations.AddImmediateWraps : Prop :=
  ∀ (x : Reg) (nn : Byte) (s : State), ∃ t, exec (.addImm x nn) s = .next t ∧
    (t.reg x).toNat = ((s.reg x).toNat + nn.toNat) % 256 ∧ (∀ r, r ≠ x → t.reg r = s.reg r) ∧ t = { s with v := t.v }

/-- `8XY1`, `8XY2`, `8XY3` are bitwise or, and, exclusive or; no other register and nothing else changes. That VF is not written the
spec derives (41_alu.md R123 to R125). -/
def Obligations.LogicIsBitwiseAndSparesVF : Prop :=
  ∀ (x y : Reg) (s : State),
    (∃ t, exec (.orReg x y) s = .next t ∧
      (∀ k, (t.reg x).getLsbD k = ((s.reg x).getLsbD k || (s.reg y).getLsbD k)) ∧
      (∀ r, r ≠ x → t.reg r = s.reg r) ∧ t = { s with v := t.v }) ∧
    (∃ t, exec (.andReg x y) s = .next t ∧
      (∀ k, (t.reg x).getLsbD k = ((s.reg x).getLsbD k && (s.reg y).getLsbD k)) ∧
      (∀ r, r ≠ x → t.reg r = s.reg r) ∧ t = { s with v := t.v }) ∧
    (∃ t, exec (.xorReg x y) s = .next t ∧
      (∀ k, (t.reg x).getLsbD k = ((s.reg x).getLsbD k != (s.reg y).getLsbD k)) ∧
      (∀ r, r ≠ x → t.reg r = s.reg r) ∧ t = { s with v := t.v })

/-- `8XY4`: `VX` is the sum modulo 256 and VF the carry, of the operands as they were; with `X = F` the sum stays (41_alu.md,
section 8XY4, and the spec's decision D3; log 11). -/
def Obligations.AddRegistersSetsCarry : Prop :=
  ∀ (x y : Reg) (s : State), ∃ t, exec (.addReg x y) s = .next t ∧
    (t.reg x).toNat = ((s.reg x).toNat + (s.reg y).toNat) % 256 ∧
    (x ≠ VF → (t.reg VF).toNat = if 255 < (s.reg x).toNat + (s.reg y).toNat then 1 else 0) ∧
    (∀ r, r ≠ x → r ≠ VF → t.reg r = s.reg r) ∧ t = { s with v := t.v }

/-- `8XY5` and `8XY7`: `VX` is the difference modulo 256 and VF is 1 exactly when the minuend is strictly greater, of the operands
as they were; with `X = F` the difference stays (41_alu.md, sections 8XY5 and 8XY7, and the spec's decision D3; log 11). -/
def Obligations.SubtractionsSetNoBorrow : Prop :=
  ∀ (x y : Reg) (s : State),
    (∃ t, exec (.sub x y) s = .next t ∧
      (t.reg x).toNat = ((s.reg x).toNat + 256 - (s.reg y).toNat) % 256 ∧
      (x ≠ VF → (t.reg VF).toNat = if (s.reg y).toNat < (s.reg x).toNat then 1 else 0) ∧
      (∀ r, r ≠ x → r ≠ VF → t.reg r = s.reg r) ∧ t = { s with v := t.v }) ∧
    (∃ t, exec (.subn x y) s = .next t ∧
      (t.reg x).toNat = ((s.reg y).toNat + 256 - (s.reg x).toNat) % 256 ∧
      (x ≠ VF → (t.reg VF).toNat = if (s.reg x).toNat < (s.reg y).toNat then 1 else 0) ∧
      (∀ r, r ≠ x → r ≠ VF → t.reg r = s.reg r) ∧ t = { s with v := t.v })

/-- `8XY6` and `8XYE` shift `VX` by one, whatever `Y`, and VF is the bit shifted out; with `X = F` the shifted value stays (41_alu.md,
sections 8XY6 and 8XYE; 30_encoding.md, section 2; the spec's decision D3; log 11). -/
def Obligations.ShiftsSetTheShiftedBit : Prop :=
  ∀ (x y : Reg) (s : State),
    (∃ t, exec (.shr x y) s = .next t ∧ (t.reg x).toNat = (s.reg x).toNat / 2 ∧
      (x ≠ VF → (t.reg VF).toNat = (s.reg x).toNat % 2) ∧
      (∀ r, r ≠ x → r ≠ VF → t.reg r = s.reg r) ∧ t = { s with v := t.v }) ∧
    (∃ t, exec (.shl x y) s = .next t ∧ (t.reg x).toNat = (s.reg x).toNat * 2 % 256 ∧
      (x ≠ VF → (t.reg VF).toNat = (s.reg x).toNat / 128) ∧
      (∀ r, r ≠ x → r ≠ VF → t.reg r = s.reg r) ∧ t = { s with v := t.v })

/-- `CXNN`: `VX` is the drawn byte under the mask, zero wherever `NN` is zero, and one draw is consumed; VF is not written unless it is
`VX` (41_alu.md, section CXNN). That the drawn byte is the free value `Config.rnd` of a counter is the model's form (log 5). -/
def Obligations.RandomByteIsMasked : Prop :=
  ∀ (x : Reg) (nn : Byte) (s : State), ∃ t, exec (.rnd x nn) s = .next t ∧
    (∀ k, (t.reg x).getLsbD k = ((Config.rnd s.draws).getLsbD k && nn.getLsbD k)) ∧ t.reg x &&& ~~~nn = 0 ∧
    t.draws = s.draws + 1 ∧ (∀ r, r ≠ x → t.reg r = s.reg r) ∧ t = { s with v := t.v, draws := t.draws }

/-- VF changes only by the six flag writers, whatever their operands, or as a plain destination: an instruction whose `X` is F, or
`FX65` up to VF (10_state.md R21; 70_reset_and_hazards.md R241). -/
def Obligations.OnlyFlagWritersChangeVF : Prop :=
  ∀ (i : Instr) (s t : State), exec i s = .next t → t.reg VF ≠ s.reg VF →
    (∃ x y n, i = .addReg x y ∨ i = .sub x y ∨ i = .shr x y ∨ i = .subn x y ∨ i = .shl x y ∨ i = .drw x y n) ∨
    (∃ nn, i = .ldImm VF nn ∨ i = .addImm VF nn ∨ i = .rnd VF nn) ∨
    (∃ y, i = .ldReg VF y ∨ i = .orReg VF y ∨ i = .andReg VF y ∨ i = .xorReg VF y) ∨
    i = .ldVxDt VF ∨ i = .ldVxK VF ∨ i = .ldRegs VF

/-! ## Index register and memory transfer -/

/-- `ANNN` sets `I` to `NNN`, `FX1E` adds `VX` to it modulo 65536; no register, VF among them, and nothing else changes
(42_index_memory.md R150, R151). -/
def Obligations.IndexIsLoadedAndAdvanced : Prop :=
  ∀ (nnn : Addr) (x : Reg) (s : State),
    (∃ t, exec (.ldI nnn) s = .next t ∧ t.i.toNat = nnn.toNat ∧ t = { s with i := t.i }) ∧
    (∃ t, exec (.addI x) s = .next t ∧ t.i.toNat = (s.i.toNat + (s.reg x).toNat) % 65536 ∧ t = { s with i := t.i })

/-- `FX29` sets `I` to five times the whole byte `VX` and changes nothing else (42_index_memory.md R152, where the whole byte is the
spec's inference). -/
def Obligations.GlyphAddressIsFiveTimesVX : Prop :=
  ∀ (x : Reg) (s : State), ∃ t, exec (.ldF x) s = .next t ∧ t.i.toNat = (s.reg x).toNat * 5 ∧ t = { s with i := t.i }

/-- `FX33` stores the three decimal digits of `VX` at `I`, `I + 1`, `I + 2` and changes no other byte and nothing else; when one of the
three addresses is above 0xFFF it raises MemOutOfRange and writes nothing (42_index_memory.md, section FX33, and the spec's decision
D4; log 9). -/
def Obligations.DecimalDigitsAreStored : Prop :=
  ∀ (x : Reg) (s : State),
    (s.i.toNat + 2 ≤ 0xFFF → ∃ t, exec (.ldB x) s = .next t ∧
      (t.mem.read s.i.toNat).toNat = (s.reg x).toNat / 100 ∧
      (t.mem.read (s.i.toNat + 1)).toNat = (s.reg x).toNat / 10 % 10 ∧
      (t.mem.read (s.i.toNat + 2)).toNat = (s.reg x).toNat % 10 ∧
      (∀ a, a < s.i.toNat ∨ s.i.toNat + 2 < a → t.mem.read a = s.mem.read a) ∧ t = { s with mem := t.mem }) ∧
    (0xFFF < s.i.toNat + 2 → exec (.ldB x) s = .next { s with
      status := .halted ⟨.memOutOfRange, some (BitVec.ofNat 16 (0xF033 + x.val * 0x100)), s.pc - 2⟩ })

/-- `FX55` stores `V0` to `VX` from `I` on and changes no other byte, not `I` and nothing else; when an address is above 0xFFF it
raises MemOutOfRange and writes nothing (42_index_memory.md, section FX55, and the spec's decision D4; log 9). -/
def Obligations.RegistersAreStored : Prop :=
  ∀ (x : Reg) (s : State),
    (s.i.toNat + x.val ≤ 0xFFF → ∃ t, exec (.stRegs x) s = .next t ∧
      (∀ r : Reg, r ≤ x → t.mem.read (s.i.toNat + r.val) = s.reg r) ∧
      (∀ a, a < s.i.toNat ∨ s.i.toNat + x.val < a → t.mem.read a = s.mem.read a) ∧ t = { s with mem := t.mem }) ∧
    (0xFFF < s.i.toNat + x.val → exec (.stRegs x) s = .next { s with
      status := .halted ⟨.memOutOfRange, some (BitVec.ofNat 16 (0xF055 + x.val * 0x100)), s.pc - 2⟩ })

/-- `FX65` loads `V0` to `VX` from `I` on and changes no other register, not `I` and nothing else; when an address is above 0xFFF it
raises MemOutOfRange and loads nothing (42_index_memory.md, section FX65, and the spec's decision D4; log 9). -/
def Obligations.RegistersAreLoaded : Prop :=
  ∀ (x : Reg) (s : State),
    (s.i.toNat + x.val ≤ 0xFFF → ∃ t, exec (.ldRegs x) s = .next t ∧
      (∀ r : Reg, r ≤ x → t.reg r = s.mem.read (s.i.toNat + r.val)) ∧ (∀ r : Reg, x < r → t.reg r = s.reg r) ∧
      t = { s with v := t.v }) ∧
    (0xFFF < s.i.toNat + x.val → exec (.ldRegs x) s = .next { s with
      status := .halted ⟨.memOutOfRange, some (BitVec.ofNat 16 (0xF065 + x.val * 0x100)), s.pc - 2⟩ })

/-- What `FX55` stored, `FX65` with the same `I` loads again, whatever the registers held in between (95_test_vectors.md S7). -/
def Obligations.StoredRegistersLoadAgain : Prop :=
  ∀ (x : Reg) (s t u : State), s.i.toNat + x.val ≤ 0xFFF → exec (.stRegs x) s = .next t → u.mem = t.mem → u.i = s.i →
    ∃ r, exec (.ldRegs x) u = .next r ∧ ∀ k : Reg, k ≤ x → r.reg k = s.reg k

/-! ## Display -/

/-- `00E0` clears every cell, marks the display dirty and reports it; no register and nothing else changes (43_display.md R170).
That a cell outside HEIGHT by WIDTH reads as 0 is the model's choice (log 18). -/
def Obligations.ClearBlanksTheDisplay : Prop :=
  ∀ s : State, ∃ t, exec .cls s = .next t ∧ t.disp.length = s.cfg.height ∧ (∀ row ∈ t.disp, row.length = s.cfg.width) ∧
    (∀ r c, t.pixel r c = false) ∧ t.dirty = true ∧ t.displayChanged = true ∧
    t = { s with disp := t.disp, dirty := t.dirty, displayChanged := t.displayChanged }

/-- `DXYN` whose drawn rows are all in memory: a cell is XORed with the sprite bit over it, clipped at the right and the bottom edge;
VF is 1 exactly when a drawn 1 bit was over a 1 cell, else 0; the display is dirty and reported changed; no other register and
nothing else changes. The premise is the display's shape, which every reachable state has (43_display.md, section DXYN, and the
spec's decisions D14, D17; log 12). A cell outside the display reads as 0 before and after, the model's choice (log 18). -/
def Obligations.DrawXorsAndClips : Prop :=
  ∀ (x y : Reg) (n : Fin 16) (s : State), s.gridWf = true →
    ∀ x0 y0 rows : Nat, x0 = (s.reg x).toNat % s.cfg.width → y0 = (s.reg y).toNat % s.cfg.height →
    rows = min n.val (s.cfg.height - y0) → (rows = 0 ∨ s.i.toNat + rows - 1 ≤ 0xFFF) →
    ∃ t, exec (.drw x y n) s = .next t ∧
      (∀ r c, t.pixel r c = (s.pixel r c !=
        (decide (y0 ≤ r ∧ r < y0 + rows ∧ x0 ≤ c ∧ c < x0 + 8 ∧ c < s.cfg.width) &&
          (s.mem.read (s.i.toNat + (r - y0))).getLsbD (7 - (c - x0))))) ∧
      (t.reg VF = 1 ∨ t.reg VF = 0) ∧
      (t.reg VF = 1 ↔ ∃ r c, y0 ≤ r ∧ r < y0 + rows ∧ x0 ≤ c ∧ c < x0 + 8 ∧ c < s.cfg.width ∧
        (s.mem.read (s.i.toNat + (r - y0))).getLsbD (7 - (c - x0)) = true ∧ s.pixel r c = true) ∧
      (∀ r, r ≠ VF → t.reg r = s.reg r) ∧ t.dirty = true ∧ t.displayChanged = true ∧
      t = { s with v := t.v, disp := t.disp, dirty := t.dirty, displayChanged := t.displayChanged }

/-- `DXYN` with a drawn row above 0xFFF raises MemOutOfRange and changes nothing: VF is not reset, `dirty` is not set (43_display.md,
section DXYN, and the spec's decisions D4, D17; log 9, 12). -/
def Obligations.DrawPastMemoryIsFatal : Prop :=
  ∀ (x y : Reg) (n : Fin 16) (s : State) (rows : Nat), rows = min n.val (s.cfg.height - (s.reg y).toNat % s.cfg.height) →
    1 ≤ rows → 0xFFF < s.i.toNat + rows - 1 →
    exec (.drw x y n) s = .next { s with status := .halted ⟨.memOutOfRange,
      some (BitVec.ofNat 16 (0xD000 + x.val * 0x100 + y.val * 0x10 + n.val)), s.pc - 2⟩ }

/-- The same sprite drawn twice at the same place, with nothing drawn between, restores every cell, and the second draw collides
exactly when a drawn 1 bit was over a cell that had been 0 (43_display.md, section DXYN). Its corner case says 'exactly when the
drawn part had a 1 bit', which its own pseudocode gives only where the cells were 0 before; the pseudocode is followed (log 12).
A cell outside the display reads as 0 throughout, the model's choice (log 18). -/
def Obligations.DrawingTwiceRestoresTheDisplay : Prop :=
  ∀ (x y : Reg) (n : Fin 16) (s t u : State), s.gridWf = true → s.status = .running → exec (.drw x y n) s = .next t →
    t.status = .running → u.disp = t.disp → u.cfg = s.cfg → u.mem = s.mem → u.i = s.i → u.reg x = s.reg x →
    u.reg y = s.reg y →
    ∃ r, exec (.drw x y n) u = .next r ∧ (∀ row col, r.pixel row col = s.pixel row col) ∧
      (r.reg VF = 1 ↔ ∃ row col, s.pixel row col = false ∧ t.pixel row col = true)

/-- The display, `dirty` and `display_changed` are written by `00E0` and `DXYN` only, and a draw writes only inside its rectangle of 8
columns and `N` rows (10_state.md R34; 43_display.md R172). -/
def Obligations.OnlyClearAndDrawWriteTheDisplay : Prop :=
  ∀ (i : Instr) (s t : State), exec i s = .next t →
    (t = { t with disp := s.disp, dirty := s.dirty, displayChanged := s.displayChanged } ∨ i = .cls ∨
      ∃ x y n, i = .drw x y n) ∧
    ∀ x y n, i = .drw x y n → s.gridWf = true → ∀ r c, t.pixel r c ≠ s.pixel r c →
      (s.reg y).toNat % s.cfg.height ≤ r ∧ r < min ((s.reg y).toNat % s.cfg.height + n.val) s.cfg.height ∧
      (s.reg x).toNat % s.cfg.width ≤ c ∧ c < min ((s.reg x).toNat % s.cfg.width + 8) s.cfg.width

/-! ## Keypad and timers -/

/-- `EX9E` and `EXA1` skip when key `VX` is, and is not, held; with `VX` above 15 they raise BadKeyIndex; they change nothing else
(44_keypad_timers.md, sections Key index, EX9E, EXA1, and the spec's decision D5; log 10). -/
def Obligations.KeySkips : Prop :=
  ∀ (x : Reg) (s : State),
    (∀ k : Key, (s.reg x).toNat = k.val →
      (∃ t, exec (.skp x) s = .next t ∧ t.pc = (if s.keyHeld k = true then s.pc + 2 else s.pc) ∧ t = { s with pc := t.pc }) ∧
      (∃ t, exec (.sknp x) s = .next t ∧ t.pc = (if s.keyHeld k = true then s.pc else s.pc + 2) ∧ t = { s with pc := t.pc })) ∧
    (15 < (s.reg x).toNat →
      exec (.skp x) s = .next { s with
        status := .halted ⟨.badKeyIndex, some (BitVec.ofNat 16 (0xE09E + x.val * 0x100)), s.pc - 2⟩ } ∧
      exec (.sknp x) s = .next { s with
        status := .halted ⟨.badKeyIndex, some (BitVec.ofNat 16 (0xE0A1 + x.val * 0x100)), s.pc - 2⟩ })

/-- `FX0A`, its four cases: it waits with `PC` rewound until a key is held, latches the lowest, waits until that key is released, and
then puts its index in `VX`; nothing else changes (44_keypad_timers.md, section FX0A; the first case is the spec's decision D16;
log 13). -/
def Obligations.KeyWaitLatchesThenDelivers : Prop :=
  ∀ (x : Reg) (s : State),
    (s.wait = .idle → (∀ k, s.keyHeld k = false) → exec (.ldVxK x) s = .next { s with pc := s.pc - 2 }) ∧
    (∀ k, s.wait = .idle → s.keyHeld k = true → (∀ j, j < k → s.keyHeld j = false) →
      exec (.ldVxK x) s = .next { s with wait := .keyLatched k, pc := s.pc - 2 }) ∧
    (∀ k, s.wait = .keyLatched k → s.keyHeld k = true → exec (.ldVxK x) s = .next { s with pc := s.pc - 2 }) ∧
    (∀ k, s.wait = .keyLatched k → s.keyHeld k = false → ∃ t, exec (.ldVxK x) s = .next t ∧ (t.reg x).toNat = k.val ∧
      (∀ r, r ≠ x → t.reg r = s.reg r) ∧ t.wait = .idle ∧ t = { s with v := t.v, wait := t.wait })

/-- `FX07` reads DT, `FX15` and `FX18` write DT and ST, after which the tone is `ST > 0`; nothing else changes (44_keypad_timers.md
R182, R185, R186). -/
def Obligations.TimersAreReadAndLoaded : Prop :=
  ∀ (x : Reg) (s : State),
    (∃ t, exec (.ldVxDt x) s = .next t ∧ t.reg x = s.dt ∧ (∀ r, r ≠ x → t.reg r = s.reg r) ∧ t = { s with v := t.v }) ∧
    (∃ t, exec (.ldDtVx x) s = .next t ∧ t.dt = s.reg x ∧ t = { s with dt := t.dt }) ∧
    (∃ t, exec (.ldStVx x) s = .next t ∧ t.st = s.reg x ∧ (t.tone = true ↔ 0 < t.st.toNat) ∧ t = { s with st := t.st })

/-- A tick takes one from each timer that is not 0 and changes nothing else; a frame has one tick, after its steps (60_exceptions.md
R211). -/
def Obligations.TickCountsBothTimersDown : Prop :=
  (∀ s : State, s.tick.dt.toNat = s.dt.toNat - 1 ∧ s.tick.st.toNat = s.st.toNat - 1 ∧
    s.tick = { s with dt := s.tick.dt, st := s.tick.st }) ∧
  ∀ (c : Config) (keys : Vector Bool 16), (frameEvents c keys).count .tick = 1 ∧ (frameEvents c keys).getLast? = some .tick

/-- Only the host's acknowledge clears `dirty`, and it changes nothing else; the host acknowledges a dirty display when it has read it;
every event but an acknowledge leaves `dirty` set once it is set (60_exceptions.md R218). -/
def Obligations.OnlyAcknowledgeClearsDirty : Prop :=
  (∀ s : State, s.ackDirty.dirty = false ∧ s.ackDirty = { s with dirty := false }) ∧
  (∀ s : State, s.dirty = true → (handOff s).1.display = some s.snapshot ∧ (handOff s).2 = s.ackDirty) ∧
  ∀ s t : State, s.dirty = true → s.schedule.head? ≠ some .ackDirty → step s = .next t → t.dirty = true

/-- Only `EX9E`, `EXA1` and `FX0A` read the keypad: any other instruction does the same whatever keys are held (10_state.md R30). -/
def Obligations.OnlyKeyInstructionsSeeTheKeypad : Prop :=
  ∀ (i : Instr) (s t : State) (ks : Vector Bool 16), (∀ x, i ≠ .skp x ∧ i ≠ .sknp x ∧ i ≠ .ldVxK x) →
    exec i s = .next t → exec i { s with keys := ks } = .next { t with keys := ks }

/-! ## Who may change what -/

/-- `SP` and the stack are touched by `2NNN` and `00EE` only, and `00EE` leaves the slots (10_state.md R24). -/
def Obligations.OnlyCallAndReturnTouchTheStack : Prop :=
  ∀ (i : Instr) (s t : State), exec i s = .next t →
    (t.sp ≠ s.sp → i = .ret ∨ ∃ nnn, i = .call nnn) ∧ (t.stack ≠ s.stack → ∃ nnn, i = .call nnn)

/-- A byte of memory changes only by `FX33` and `FX55`, and only inside the three, and `X + 1`, bytes from `I` (20_memory.md R56). -/
def Obligations.OnlyStoresChangeMemory : Prop :=
  ∀ (i : Instr) (s t : State) (a : Nat), exec i s = .next t → t.mem.read a ≠ s.mem.read a →
    ∃ x, (i = .ldB x ∧ s.i.toNat ≤ a ∧ a ≤ s.i.toNat + 2) ∨ (i = .stRegs x ∧ s.i.toNat ≤ a ∧ a ≤ s.i.toNat + x.val)

/-- Of the instructions only `FX15` writes DT, only `FX18` ST, only `ANNN`, `FX1E` and `FX29` write `I`, only `FX0A` writes `wait`, and
none writes a key flag or the configuration (10_state.md R23, R25, R26, R30, R31, R34; 00_scope.md R3; 60_exceptions.md R215). That
the configuration is a field of the state is the model's choice (log 3). -/
def Obligations.TimersIndexAndWaitHaveTheirWriters : Prop :=
  ∀ (i : Instr) (s t : State), exec i s = .next t →
    (t.dt ≠ s.dt → ∃ x, i = .ldDtVx x) ∧ (t.st ≠ s.st → ∃ x, i = .ldStVx x) ∧
    (t.i ≠ s.i → (∃ nnn, i = .ldI nnn) ∨ ∃ x, i = .addI x ∨ i = .ldF x) ∧ (t.wait ≠ s.wait → ∃ x, i = .ldVxK x) ∧
    t.keys = s.keys ∧ t.cfg = s.cfg

/-- A fatal error of an instruction is precise: the record names it by its word and `PC - 2`, nothing else changes, and each kind comes
from its own instructions under its own condition (60_exceptions.md, section 3, and the spec's decisions D6, D8; log 8). -/
def Obligations.FatalErrorsArePrecise : Prop :=
  ∀ (i : Instr) (s t : State), exec i s = .next t → t.status ≠ s.status →
    ∃ kind, t = { s with status := .halted ⟨kind, some (encode i), s.pc - 2⟩ } ∧
      ((kind = .stackOverflow ∧ s.sp = 16 ∧ ∃ nnn, i = .call nnn) ∨ (kind = .stackUnderflow ∧ s.sp = 0 ∧ i = .ret) ∨
        (kind = .memOutOfRange ∧ 0xFF0 < s.i.toNat ∧ ∃ x y n, i = .drw x y n ∨ i = .ldB x ∨ i = .stRegs x ∨ i = .ldRegs x) ∨
        (kind = .badKeyIndex ∧ ∃ x, 15 < (s.reg x).toNat ∧ (i = .skp x ∨ i = .sknp x)))

/-! ## Whole-machine rules -/

/-- Every step keeps the invariant of every reachable state (10_state.md R36): the bounds of `PC` and the stack, the latched key's
`FX0A` at `PC`, the display's shape, the canonical form of memory, a legal configuration. -/
def Obligations.EveryStepKeepsTheInvariant : Prop :=
  ∀ s t : State, s.inv = true → step s = .next t → t.inv = true

/-- The invariant holds after every reset (10_state.md R35, R36). -/
def Obligations.InvariantHoldsAfterReset : Prop :=
  State.reset.inv = true ∧
  ∀ (c : Config) (font : Vector Byte 80) (prog : List Byte) (s : State), boot c font prog = .ok s → s.inv = true

/-- Reset: the font at 0x000, the image at 0x200, zero elsewhere, the display blank, every other field as 10_state.md R35 lists it;
with the defaults and an empty image it is the reset state. It rests on the spec's decisions D9, D10, D22 (log 1, 2, 15, 16). That an
address above 0xFFF reads as 0 (log 17), and a cell outside the display (log 18), is the model's choice. -/
def Obligations.ResetLoadsFontAndProgram : Prop :=
  (∀ (c : Config) (font : Vector Byte 80) (prog : List Byte), c.wf = true → prog.length ≤ 3584 →
    ∃ s, boot c font prog = .ok s ∧ (∀ k, k < 80 → font[k]? = some (s.mem.read k)) ∧
      (∀ a, 80 ≤ a → a < 0x200 → s.mem.read a = 0) ∧
      (∀ k, k < prog.length → prog[k]? = some (s.mem.read (0x200 + k))) ∧
      (∀ a, 0x200 + prog.length ≤ a → s.mem.read a = 0) ∧ (∀ r k, s.pixel r k = false) ∧
      (∀ r, s.reg r = 0) ∧ s.i = 0 ∧ s.pc = 0x0200 ∧ s.sp = 0 ∧ (∀ k, k < 16 → s.stack[k]? = some 0) ∧ s.dt = 0 ∧ s.st = 0 ∧
      s.dirty = false ∧ (∀ k, s.keyHeld k = false) ∧ s.wait = .idle ∧ s.status = .running ∧ s.tone = false ∧ s.cfg = c) ∧
  boot Config.default fontParameter [] = .ok State.reset

/-- An image longer than 3584 bytes gives no state at all; one of 3584 bytes fills 0x200 to 0xFFF (70_reset_and_hazards.md R233). -/
def Obligations.OversizedImageIsRefused : Prop :=
  ∀ (c : Config) (font : Vector Byte 80) (prog : List Byte),
    (3584 < prog.length → ∀ s, boot c font prog ≠ .ok s) ∧
    (prog.length = 3584 → c.wf = true → ∃ s, boot c font prog = .ok s ∧
      ∀ a, 0x200 ≤ a → a ≤ 0xFFF → prog[a - 0x200]? = some (s.mem.read a))

/-- The schedule of a frame runs, event by event, exactly the frame: the sixteen keys, IPF cycles, one tick, whatever is scheduled after
it (60_exceptions.md R214; 00_scope.md R4). The schedule is the model's own field (log 6). -/
def Obligations.FrameScheduleRunsTheFrame : Prop :=
  ∀ (keys : Vector Bool 16) (s : State) (rest : List Event), ∃ t, frame keys { s with schedule := rest } = .next t ∧
    Host.Core.run Sys2Proof.core (17 + max 1 (s.cfg.ips / 60)) { s with schedule := frameEvents s.cfg keys ++ rest } = .next t

/-- From a finished state, a self-jump in a running core, a cycle changes nothing but the pulses, so it stays finished
(70_reset_and_hazards.md R247, the spec's convention, its decision D21; log 23). -/
def Obligations.FinishedProgramStaysFinished : Prop :=
  ∀ s : State, s.finished = true →
    cycle s = .next { s with displayChanged := false, diagUnmapped := none }
end

