-- ==== Sys2Proof/Laws/Decode.lean ====
section
/-! SUPPORT. The laws of digits, fields and rows: a word is its four digits, a row selects by digits, and the encoders put each
field where the decoder reads it. -/

namespace Sys2Proof

/-! ## Digits -/

theorem digit_val (w : Word) (k : Nat) : (digit w k).val = w.toNat / 16 ^ k % 16 := rfl

theorem digit_eq_extract (w : Word) (k : Nat) : (digit w k).val = (w.extractLsb' (4 * k) 4).toNat := by
  rw [digit_val, BitVec.extractLsb'_toNat, Nat.shiftRight_eq_div_pow, Nat.pow_mul]

/-- A word is its four digits. -/
theorem word_toNat_digits (w : Word) :
    w.toNat = (digit w 3).val * 4096 + (digit w 2).val * 256 + (digit w 1).val * 16 + (digit w 0).val := by
  have := w.isLt
  simp only [digit_val]
  omega

theorem word_ext_digits {v w : Word} (h3 : digit v 3 = digit w 3) (h2 : digit v 2 = digit w 2) (h1 : digit v 1 = digit w 1)
    (h0 : digit v 0 = digit w 0) : v = w := by
  apply BitVec.eq_of_toNat_eq
  rw [word_toNat_digits v, word_toNat_digits w, h3, h2, h1, h0]

theorem fieldNN_toNat (w : Word) : (fieldNN w).toNat = (digit w 1).val * 16 + (digit w 0).val := by
  simp only [fieldNN, BitVec.toNat_setWidth, digit_val]; omega

theorem fieldNNN_toNat (w : Word) :
    (fieldNNN w).toNat = (digit w 2).val * 256 + (digit w 1).val * 16 + (digit w 0).val := by
  simp only [fieldNNN, BitVec.toNat_setWidth, digit_val]; omega

/-- Masking works digit by digit. -/
theorem digit_and (v w : Word) (k : Nat) : (digit (v &&& w) k).val = (digit v k).val &&& (digit w k).val := by
  simp only [digit_eq_extract, BitVec.extractLsb'_and, BitVec.toNat_and]

/-- A row selects a word by its digits. -/
theorem Row.selects_iff (r : Row) (w : Word) : r.selects w = true ↔
    (digit w 3).val &&& (digit r.mask 3).val = (digit r.value 3).val ∧
    (digit w 2).val &&& (digit r.mask 2).val = (digit r.value 2).val ∧
    (digit w 1).val &&& (digit r.mask 1).val = (digit r.value 1).val ∧
    (digit w 0).val &&& (digit r.mask 0).val = (digit r.value 0).val := by
  simp only [Row.selects, beq_iff_eq, ← digit_and]
  constructor
  · intro h; simp only [h, and_self]
  · rintro ⟨h3, h2, h1, h0⟩
    exact word_ext_digits (Fin.ext h3) (Fin.ext h2) (Fin.ext h1) (Fin.ext h0)

theorem digit_and_F (d : Fin 16) : d.val &&& 0xF = d.val := by revert d; decide

/-! ## The encoders -/

theorem encodeNNN_toNat (op : Fin 16) (a : Addr) : (encodeNNN op.val a).toNat = op.val * 4096 + a.toNat := by
  have := a.isLt
  simp only [encodeNNN, BitVec.toNat_ofNat]; omega

theorem encodeXNN_toNat (op : Fin 16) (x : Reg) (b : Byte) :
    (encodeXNN op.val x b).toNat = op.val * 4096 + x.val * 256 + b.toNat := by
  have := b.isLt
  simp only [encodeXNN, BitVec.toNat_ofNat]; omega

theorem encodeXYN_toNat (op : Fin 16) (x y : Reg) (n : Fin 16) :
    (encodeXYN op.val x y n.val).toNat = op.val * 4096 + x.val * 256 + y.val * 16 + n.val := by
  simp only [encodeXYN, BitVec.toNat_ofNat]; omega

theorem encodeX_toNat (op : Fin 16) (x : Reg) (low : Fin 256) :
    (encodeX op.val x low.val).toNat = op.val * 4096 + x.val * 256 + low.val := by
  simp only [encodeX, BitVec.toNat_ofNat]; omega

theorem encodeNNN_digit3 (op : Fin 16) (a : Addr) : digit (encodeNNN op.val a) 3 = op := by
  have := a.isLt
  apply Fin.ext; rw [digit_val, encodeNNN_toNat]; omega

theorem encodeNNN_fieldNNN (op : Fin 16) (a : Addr) : fieldNNN (encodeNNN op.val a) = a := by
  have := a.isLt
  apply BitVec.eq_of_toNat_eq; rw [fieldNNN, BitVec.toNat_setWidth, encodeNNN_toNat]; omega

theorem encodeXNN_digit3 (op : Fin 16) (x : Reg) (b : Byte) : digit (encodeXNN op.val x b) 3 = op := by
  have := b.isLt
  apply Fin.ext; rw [digit_val, encodeXNN_toNat]; omega

theorem encodeXNN_fieldX (op : Fin 16) (x : Reg) (b : Byte) : fieldX (encodeXNN op.val x b) = x := by
  have := b.isLt
  apply Fin.ext; rw [fieldX, digit_val, encodeXNN_toNat]; omega

theorem encodeXNN_fieldNN (op : Fin 16) (x : Reg) (b : Byte) : fieldNN (encodeXNN op.val x b) = b := by
  have := b.isLt
  apply BitVec.eq_of_toNat_eq; rw [fieldNN, BitVec.toNat_setWidth, encodeXNN_toNat]; omega

theorem encodeXYN_digit3 (op : Fin 16) (x y : Reg) (n : Fin 16) : digit (encodeXYN op.val x y n.val) 3 = op := by
  apply Fin.ext; rw [digit_val, encodeXYN_toNat]; omega

theorem encodeXYN_fieldX (op : Fin 16) (x y : Reg) (n : Fin 16) : fieldX (encodeXYN op.val x y n.val) = x := by
  apply Fin.ext; rw [fieldX, digit_val, encodeXYN_toNat]; omega

theorem encodeXYN_fieldY (op : Fin 16) (x y : Reg) (n : Fin 16) : fieldY (encodeXYN op.val x y n.val) = y := by
  apply Fin.ext; rw [fieldY, digit_val, encodeXYN_toNat]; omega

theorem encodeXYN_fieldN (op : Fin 16) (x y : Reg) (n : Fin 16) : fieldN (encodeXYN op.val x y n.val) = n := by
  apply Fin.ext; rw [fieldN, digit_val, encodeXYN_toNat]; omega

theorem encodeX_digit3 (op : Fin 16) (x : Reg) (low : Fin 256) : digit (encodeX op.val x low.val) 3 = op := by
  apply Fin.ext; rw [digit_val, encodeX_toNat]; omega

theorem encodeX_fieldX (op : Fin 16) (x : Reg) (low : Fin 256) : fieldX (encodeX op.val x low.val) = x := by
  apply Fin.ext; rw [fieldX, digit_val, encodeX_toNat]; omega

theorem encodeX_fieldNN (op : Fin 16) (x : Reg) (low : Fin 256) : (fieldNN (encodeX op.val x low.val)).toNat = low.val := by
  rw [fieldNN, BitVec.toNat_setWidth, encodeX_toNat]; omega

/-! ## Bytes in memory order -/

theorem wordOfBytes_toNat (h l : Byte) : (wordOfBytes h l).toNat = h.toNat * 256 + l.toNat := by
  simp only [wordOfBytes, BitVec.toNat_append]
  rw [Nat.shiftLeft_eq, Nat.mul_comm, ← Nat.two_pow_add_eq_or_of_lt l.isLt]

/-- The two bytes of a word, the high one first, are that word. -/
theorem wordOfBytes_split (w : Word) : wordOfBytes (w.extractLsb' 8 8) (w.setWidth 8) = w := by
  have := w.isLt
  apply BitVec.eq_of_toNat_eq
  rw [wordOfBytes_toNat, BitVec.extractLsb'_toNat, BitVec.toNat_setWidth, Nat.shiftRight_eq_div_pow]
  omega

end Sys2Proof
end

