-- ==== Sys2Proof/Laws/Memory.lean ====
section
/-! SUPPORT. The laws of memory: read after write, the canonical form, and what the block accesses do. -/

namespace Sys2Proof.Machine

/-! ## Read after write -/

theorem Memory.read_nil (a : Nat) : Memory.read [] a = Memory.unlisted a := rfl

theorem Memory.read_cons (e : Host.Cell) (m : Memory) (a : Nat) :
    Memory.read (e :: m) a = if e.1 = a then e.2 else Memory.read m a := rfl

theorem Memory.read_insert (m : Memory) (a c : Nat) (b : Byte) :
    (m.insert a b).read c = if c = a then b else m.read c := by
  induction m with
  | nil => simp only [Memory.insert, Memory.read]; grind
  | cons e m ih =>
    obtain ⟨k, d⟩ := e
    simp only [Memory.insert]
    split
    · simp only [Memory.read_cons]; grind
    · split
      · simp only [Memory.read_cons]; grind
      · simp only [Memory.read_cons, ih]; grind

theorem Memory.read_erase (m : Memory) (a c : Nat) :
    (m.erase a).read c = if c = a then Memory.unlisted a else m.read c := by
  induction m with
  | nil => simp only [Memory.erase, List.filter_nil, Memory.read]; grind
  | cons e m ih =>
    simp only [Memory.erase] at ih
    by_cases h : e.1 = a
    · simp only [Memory.erase, List.filter_cons, h, ne_eq, not_true, decide_false, Bool.false_eq_true, if_false, ih,
        Memory.read_cons]
      grind
    · simp only [Memory.erase, List.filter_cons, ne_eq, h, not_false_eq_true, decide_true, if_true, Memory.read_cons, ih]
      grind

/-- A write changes the byte at its address and no other (20_memory.md R58). -/
theorem Memory.read_write (m : Memory) (a c : Nat) (b : Byte) :
    (m.write a b).read c = if c = a then b else m.read c := by
  simp only [Memory.write]
  split
  · rename_i h; rw [Memory.read_erase, h]
  · exact Memory.read_insert m a c b

/-- A store of bytes changes the bytes from its address on and no other. -/
theorem Memory.read_store (m : Memory) (a c : Nat) (bs : List Byte) :
    (m.store a bs).read c = if a ≤ c ∧ c < a + bs.length then bs.getD (c - a) 0 else m.read c := by
  induction bs generalizing m a with
  | nil => simp only [Memory.store, List.length_nil]; rw [if_neg (by omega)]
  | cons b bs ih =>
    simp only [Memory.store, ih, Memory.read_write, List.length_cons]
    by_cases h1 : a + 1 ≤ c ∧ c < a + 1 + bs.length
    · rw [if_pos h1, if_pos (by omega), show c - a = (c - (a + 1)) + 1 by omega, List.getD_cons_succ]
    · rw [if_neg h1]
      by_cases h2 : c = a
      · subst h2; rw [if_pos rfl, if_pos (by omega)]; simp
      · rw [if_neg h2, if_neg (by omega)]

/-- Storing what the unlisted addresses read as leaves the empty memory empty. -/
theorem Memory.store_nil (a : Nat) (bs : List Byte) (h : ∀ k, k < bs.length → bs.getD k 0 = Memory.unlisted (a + k)) :
    Memory.store [] a bs = [] := by
  induction bs generalizing a with
  | nil => rfl
  | cons b bs ih =>
    have hb : b = Memory.unlisted a := h 0 (by simp)
    have he : Memory.write [] a b = [] := by simp only [Memory.write, if_pos hb]; rfl
    rw [Memory.store, he]
    refine ih (a + 1) fun k hk => ?_
    rw [show a + 1 + k = a + (k + 1) by omega]
    exact h (k + 1) (by simp only [List.length_cons]; omega)

/-! ## The canonical form -/

theorem Memory.wf_iff (m : Memory) : m.wf = true ↔
    m.Pairwise (fun e f => e.1 < f.1) ∧ ∀ e ∈ m, e.1 ≤ 0xFFF ∧ e.2 ≠ Memory.unlisted e.1 := by
  simp [Memory.wf]

theorem Memory.mem_insert {m : Memory} {a : Nat} {b : Byte} {e : Host.Cell} (h : e ∈ m.insert a b) : e = (a, b) ∨ e ∈ m := by
  induction m with
  | nil => simpa [Memory.insert] using h
  | cons f m ih =>
    obtain ⟨k, c⟩ := f
    simp only [Memory.insert] at h
    split at h
    · simpa using h
    · split at h
      · rcases List.mem_cons.1 h with h | h
        · exact .inl h
        · exact .inr (List.mem_cons_of_mem _ h)
      · rcases List.mem_cons.1 h with h | h
        · exact .inr (h ▸ List.mem_cons_self)
        · exact (ih h).imp_right (List.mem_cons_of_mem _)

theorem Memory.insert_rising {m : Memory} (a : Nat) (b : Byte) (h : m.Pairwise fun e f => e.1 < f.1) :
    (m.insert a b).Pairwise fun e f => e.1 < f.1 := by
  induction m with
  | nil => simp [Memory.insert]
  | cons f m ih =>
    obtain ⟨k, c⟩ := f
    have hm := List.pairwise_cons.1 h
    simp only [Memory.insert]
    split
    · rename_i hlt
      refine List.pairwise_cons.2 ⟨fun e he => ?_, h⟩
      rcases List.mem_cons.1 he with rfl | he
      · exact hlt
      · exact Nat.lt_trans hlt (hm.1 e he)
    · split
      · rename_i heq
        exact List.pairwise_cons.2 ⟨fun e he => heq ▸ hm.1 e he, hm.2⟩
      · refine List.pairwise_cons.2 ⟨fun e he => ?_, ih hm.2⟩
        rcases Memory.mem_insert he with rfl | he
        · show k < a; omega
        · exact hm.1 e he

/-- A write at an existing address keeps the canonical form. -/
theorem Memory.wf_write {m : Memory} {a : Nat} (b : Byte) (h : m.wf = true) (ha : a ≤ 0xFFF) : (m.write a b).wf = true := by
  rw [Memory.wf_iff] at h ⊢
  simp only [Memory.write]
  split
  · exact ⟨h.1.filter _, fun e he => h.2 e (List.mem_of_mem_filter he)⟩
  · rename_i hb
    refine ⟨Memory.insert_rising a b h.1, fun e he => ?_⟩
    rcases Memory.mem_insert he with rfl | he
    · exact ⟨ha, hb⟩
    · exact h.2 e he

/-- A store of bytes at existing addresses keeps the canonical form. -/
theorem Memory.wf_store {m : Memory} {a : Nat} (bs : List Byte) (h : m.wf = true) (ha : a + bs.length ≤ 0x1000) :
    (m.store a bs).wf = true := by
  induction bs generalizing m a with
  | nil => exact h
  | cons b bs ih =>
    simp only [List.length_cons] at ha
    exact ih (Memory.wf_write b h (by omega)) (by omega)

theorem Memory.wf_nil : Memory.wf [] = true := rfl

/-! ## The access primitives -/

theorem inRange_iff (a n : Nat) : inRange a n = true ↔ n = 0 ∨ a + n ≤ 0x1000 := by
  simp only [inRange, Bool.or_eq_true, decide_eq_true_eq]; omega

theorem Memory.readBlock_some {m : Memory} {a n : Nat} {bs : List Byte} (h : m.readBlock a n = some bs) :
    (n = 0 ∨ a + n ≤ 0x1000) ∧ bs = (List.range n).map fun k => m.read (a + k) := by
  simp only [Memory.readBlock] at h
  split at h
  · rename_i hr; exact ⟨(inRange_iff a n).1 hr, (Option.some.inj h).symm⟩
  · cases h

theorem Memory.readBlock_none {m : Memory} {a n : Nat} : m.readBlock a n = none ↔ 1 ≤ n ∧ 0x1000 < a + n := by
  simp only [Memory.readBlock]
  split
  · rename_i hr; have := (inRange_iff a n).1 hr; simp; omega
  · rename_i hr
    have : ¬(n = 0 ∨ a + n ≤ 0x1000) := fun h => hr ((inRange_iff a n).2 h)
    simp; omega

theorem Memory.writeBlock_some {m m' : Memory} {a : Nat} {bs : List Byte} (h : m.writeBlock a bs = some m') :
    (bs.length = 0 ∨ a + bs.length ≤ 0x1000) ∧ m' = m.store a bs := by
  simp only [Memory.writeBlock] at h
  split at h
  · rename_i hr; exact ⟨(inRange_iff _ _).1 hr, (Option.some.inj h).symm⟩
  · cases h

theorem Memory.writeBlock_none {m : Memory} {a : Nat} {bs : List Byte} :
    m.writeBlock a bs = none ↔ 1 ≤ bs.length ∧ 0x1000 < a + bs.length := by
  simp only [Memory.writeBlock]
  split
  · rename_i hr; have := (inRange_iff _ _).1 hr; simp; omega
  · rename_i hr
    have : ¬(bs.length = 0 ∨ a + bs.length ≤ 0x1000) := fun h => hr ((inRange_iff _ _).2 h)
    simp; omega

/-- A block write that goes through keeps the canonical form. -/
theorem Memory.wf_writeBlock {m m' : Memory} {a : Nat} {bs : List Byte} (h : m.wf = true)
    (hw : m.writeBlock a bs = some m') : m'.wf = true := by
  obtain ⟨hr, rfl⟩ := Memory.writeBlock_some hw
  rcases hr with hr | hr
  · rw [List.length_eq_zero_iff.1 hr]; exact h
  · exact Memory.wf_store bs h hr

/-- A byte write that goes through keeps the canonical form. -/
theorem Memory.wf_writeByte {m m' : Memory} {a : Nat} {b : Byte} (h : m.wf = true) (hw : m.writeByte a b = some m') :
    m'.wf = true := by
  simp only [Memory.writeByte] at hw
  split at hw
  · rename_i hr
    rw [← Option.some.inj hw]
    exact Memory.wf_write b h (by have := (inRange_iff a 1).1 hr; omega)
  · cases hw

theorem Memory.readWord_some {m : Memory} {a : Nat} {w : Word} (h : m.readWord a = some w) :
    a ≤ 4094 ∧ w = wordOfBytes (m.read a) (m.read (a + 1)) := by
  simp only [Memory.readWord] at h
  split at h
  · rename_i hr; exact ⟨by have := (inRange_iff a 2).1 hr; omega, (Option.some.inj h).symm⟩
  · cases h

theorem Memory.readWord_of_le (m : Memory) {a : Nat} (h : a ≤ 4094) :
    m.readWord a = some (wordOfBytes (m.read a) (m.read (a + 1))) := by
  simp only [Memory.readWord]; rw [if_pos ((inRange_iff a 2).2 (by omega))]

theorem Memory.readWord_of_gt (m : Memory) {a : Nat} (h : 4094 < a) : m.readWord a = none := by
  simp only [Memory.readWord]; rw [if_neg]; intro hr; have := (inRange_iff a 2).1 hr; omega

end Sys2Proof.Machine
end

