-- ==== Sys2Proof/Laws/State.lean ====
section
/-! SUPPORT. What each update of the state leaves in each field: one lemma per field per update, so that no proof unfolds an
update. -/

namespace Sys2Proof.Machine

variable (s : State)

/-! ## setReg -/

@[simp] theorem State.setReg_cfg (r : Reg) (b : Byte) : (s.setReg r b).cfg = s.cfg := rfl
@[simp] theorem State.setReg_v (r : Reg) (b : Byte) : (s.setReg r b).v = s.v.set r.val b r.isLt := rfl
@[simp] theorem State.setReg_i (r : Reg) (b : Byte) : (s.setReg r b).i = s.i := rfl
@[simp] theorem State.setReg_pc (r : Reg) (b : Byte) : (s.setReg r b).pc = s.pc := rfl
@[simp] theorem State.setReg_sp (r : Reg) (b : Byte) : (s.setReg r b).sp = s.sp := rfl
@[simp] theorem State.setReg_stack (r : Reg) (b : Byte) : (s.setReg r b).stack = s.stack := rfl
@[simp] theorem State.setReg_dt (r : Reg) (b : Byte) : (s.setReg r b).dt = s.dt := rfl
@[simp] theorem State.setReg_st (r : Reg) (b : Byte) : (s.setReg r b).st = s.st := rfl
@[simp] theorem State.setReg_mem (r : Reg) (b : Byte) : (s.setReg r b).mem = s.mem := rfl
@[simp] theorem State.setReg_disp (r : Reg) (b : Byte) : (s.setReg r b).disp = s.disp := rfl
@[simp] theorem State.setReg_dirty (r : Reg) (b : Byte) : (s.setReg r b).dirty = s.dirty := rfl
@[simp] theorem State.setReg_keys (r : Reg) (b : Byte) : (s.setReg r b).keys = s.keys := rfl
@[simp] theorem State.setReg_wait (r : Reg) (b : Byte) : (s.setReg r b).wait = s.wait := rfl
@[simp] theorem State.setReg_status (r : Reg) (b : Byte) : (s.setReg r b).status = s.status := rfl
@[simp] theorem State.setReg_displayChanged (r : Reg) (b : Byte) : (s.setReg r b).displayChanged = s.displayChanged := rfl
@[simp] theorem State.setReg_diagUnmapped (r : Reg) (b : Byte) : (s.setReg r b).diagUnmapped = s.diagUnmapped := rfl
@[simp] theorem State.setReg_draws (r : Reg) (b : Byte) : (s.setReg r b).draws = s.draws := rfl
@[simp] theorem State.setReg_schedule (r : Reg) (b : Byte) : (s.setReg r b).schedule = s.schedule := rfl

/-! ## setI -/

@[simp] theorem State.setI_cfg (w : Word) : (s.setI w).cfg = s.cfg := rfl
@[simp] theorem State.setI_v (w : Word) : (s.setI w).v = s.v := rfl
@[simp] theorem State.setI_i (w : Word) : (s.setI w).i = w := rfl
@[simp] theorem State.setI_pc (w : Word) : (s.setI w).pc = s.pc := rfl
@[simp] theorem State.setI_sp (w : Word) : (s.setI w).sp = s.sp := rfl
@[simp] theorem State.setI_stack (w : Word) : (s.setI w).stack = s.stack := rfl
@[simp] theorem State.setI_dt (w : Word) : (s.setI w).dt = s.dt := rfl
@[simp] theorem State.setI_st (w : Word) : (s.setI w).st = s.st := rfl
@[simp] theorem State.setI_mem (w : Word) : (s.setI w).mem = s.mem := rfl
@[simp] theorem State.setI_disp (w : Word) : (s.setI w).disp = s.disp := rfl
@[simp] theorem State.setI_dirty (w : Word) : (s.setI w).dirty = s.dirty := rfl
@[simp] theorem State.setI_keys (w : Word) : (s.setI w).keys = s.keys := rfl
@[simp] theorem State.setI_wait (w : Word) : (s.setI w).wait = s.wait := rfl
@[simp] theorem State.setI_status (w : Word) : (s.setI w).status = s.status := rfl
@[simp] theorem State.setI_displayChanged (w : Word) : (s.setI w).displayChanged = s.displayChanged := rfl
@[simp] theorem State.setI_diagUnmapped (w : Word) : (s.setI w).diagUnmapped = s.diagUnmapped := rfl
@[simp] theorem State.setI_draws (w : Word) : (s.setI w).draws = s.draws := rfl
@[simp] theorem State.setI_schedule (w : Word) : (s.setI w).schedule = s.schedule := rfl

/-! ## setPc -/

@[simp] theorem State.setPc_cfg (w : Word) : (s.setPc w).cfg = s.cfg := rfl
@[simp] theorem State.setPc_v (w : Word) : (s.setPc w).v = s.v := rfl
@[simp] theorem State.setPc_i (w : Word) : (s.setPc w).i = s.i := rfl
@[simp] theorem State.setPc_pc (w : Word) : (s.setPc w).pc = w := rfl
@[simp] theorem State.setPc_sp (w : Word) : (s.setPc w).sp = s.sp := rfl
@[simp] theorem State.setPc_stack (w : Word) : (s.setPc w).stack = s.stack := rfl
@[simp] theorem State.setPc_dt (w : Word) : (s.setPc w).dt = s.dt := rfl
@[simp] theorem State.setPc_st (w : Word) : (s.setPc w).st = s.st := rfl
@[simp] theorem State.setPc_mem (w : Word) : (s.setPc w).mem = s.mem := rfl
@[simp] theorem State.setPc_disp (w : Word) : (s.setPc w).disp = s.disp := rfl
@[simp] theorem State.setPc_dirty (w : Word) : (s.setPc w).dirty = s.dirty := rfl
@[simp] theorem State.setPc_keys (w : Word) : (s.setPc w).keys = s.keys := rfl
@[simp] theorem State.setPc_wait (w : Word) : (s.setPc w).wait = s.wait := rfl
@[simp] theorem State.setPc_status (w : Word) : (s.setPc w).status = s.status := rfl
@[simp] theorem State.setPc_displayChanged (w : Word) : (s.setPc w).displayChanged = s.displayChanged := rfl
@[simp] theorem State.setPc_diagUnmapped (w : Word) : (s.setPc w).diagUnmapped = s.diagUnmapped := rfl
@[simp] theorem State.setPc_draws (w : Word) : (s.setPc w).draws = s.draws := rfl
@[simp] theorem State.setPc_schedule (w : Word) : (s.setPc w).schedule = s.schedule := rfl

/-! ## setDt -/

@[simp] theorem State.setDt_cfg (b : Byte) : (s.setDt b).cfg = s.cfg := rfl
@[simp] theorem State.setDt_v (b : Byte) : (s.setDt b).v = s.v := rfl
@[simp] theorem State.setDt_i (b : Byte) : (s.setDt b).i = s.i := rfl
@[simp] theorem State.setDt_pc (b : Byte) : (s.setDt b).pc = s.pc := rfl
@[simp] theorem State.setDt_sp (b : Byte) : (s.setDt b).sp = s.sp := rfl
@[simp] theorem State.setDt_stack (b : Byte) : (s.setDt b).stack = s.stack := rfl
@[simp] theorem State.setDt_dt (b : Byte) : (s.setDt b).dt = b := rfl
@[simp] theorem State.setDt_st (b : Byte) : (s.setDt b).st = s.st := rfl
@[simp] theorem State.setDt_mem (b : Byte) : (s.setDt b).mem = s.mem := rfl
@[simp] theorem State.setDt_disp (b : Byte) : (s.setDt b).disp = s.disp := rfl
@[simp] theorem State.setDt_dirty (b : Byte) : (s.setDt b).dirty = s.dirty := rfl
@[simp] theorem State.setDt_keys (b : Byte) : (s.setDt b).keys = s.keys := rfl
@[simp] theorem State.setDt_wait (b : Byte) : (s.setDt b).wait = s.wait := rfl
@[simp] theorem State.setDt_status (b : Byte) : (s.setDt b).status = s.status := rfl
@[simp] theorem State.setDt_displayChanged (b : Byte) : (s.setDt b).displayChanged = s.displayChanged := rfl
@[simp] theorem State.setDt_diagUnmapped (b : Byte) : (s.setDt b).diagUnmapped = s.diagUnmapped := rfl
@[simp] theorem State.setDt_draws (b : Byte) : (s.setDt b).draws = s.draws := rfl
@[simp] theorem State.setDt_schedule (b : Byte) : (s.setDt b).schedule = s.schedule := rfl

/-! ## setSt -/

@[simp] theorem State.setSt_cfg (b : Byte) : (s.setSt b).cfg = s.cfg := rfl
@[simp] theorem State.setSt_v (b : Byte) : (s.setSt b).v = s.v := rfl
@[simp] theorem State.setSt_i (b : Byte) : (s.setSt b).i = s.i := rfl
@[simp] theorem State.setSt_pc (b : Byte) : (s.setSt b).pc = s.pc := rfl
@[simp] theorem State.setSt_sp (b : Byte) : (s.setSt b).sp = s.sp := rfl
@[simp] theorem State.setSt_stack (b : Byte) : (s.setSt b).stack = s.stack := rfl
@[simp] theorem State.setSt_dt (b : Byte) : (s.setSt b).dt = s.dt := rfl
@[simp] theorem State.setSt_st (b : Byte) : (s.setSt b).st = b := rfl
@[simp] theorem State.setSt_mem (b : Byte) : (s.setSt b).mem = s.mem := rfl
@[simp] theorem State.setSt_disp (b : Byte) : (s.setSt b).disp = s.disp := rfl
@[simp] theorem State.setSt_dirty (b : Byte) : (s.setSt b).dirty = s.dirty := rfl
@[simp] theorem State.setSt_keys (b : Byte) : (s.setSt b).keys = s.keys := rfl
@[simp] theorem State.setSt_wait (b : Byte) : (s.setSt b).wait = s.wait := rfl
@[simp] theorem State.setSt_status (b : Byte) : (s.setSt b).status = s.status := rfl
@[simp] theorem State.setSt_displayChanged (b : Byte) : (s.setSt b).displayChanged = s.displayChanged := rfl
@[simp] theorem State.setSt_diagUnmapped (b : Byte) : (s.setSt b).diagUnmapped = s.diagUnmapped := rfl
@[simp] theorem State.setSt_draws (b : Byte) : (s.setSt b).draws = s.draws := rfl
@[simp] theorem State.setSt_schedule (b : Byte) : (s.setSt b).schedule = s.schedule := rfl

/-! ## setMem -/

@[simp] theorem State.setMem_cfg (m : Memory) : (s.setMem m).cfg = s.cfg := rfl
@[simp] theorem State.setMem_v (m : Memory) : (s.setMem m).v = s.v := rfl
@[simp] theorem State.setMem_i (m : Memory) : (s.setMem m).i = s.i := rfl
@[simp] theorem State.setMem_pc (m : Memory) : (s.setMem m).pc = s.pc := rfl
@[simp] theorem State.setMem_sp (m : Memory) : (s.setMem m).sp = s.sp := rfl
@[simp] theorem State.setMem_stack (m : Memory) : (s.setMem m).stack = s.stack := rfl
@[simp] theorem State.setMem_dt (m : Memory) : (s.setMem m).dt = s.dt := rfl
@[simp] theorem State.setMem_st (m : Memory) : (s.setMem m).st = s.st := rfl
@[simp] theorem State.setMem_mem (m : Memory) : (s.setMem m).mem = m := rfl
@[simp] theorem State.setMem_disp (m : Memory) : (s.setMem m).disp = s.disp := rfl
@[simp] theorem State.setMem_dirty (m : Memory) : (s.setMem m).dirty = s.dirty := rfl
@[simp] theorem State.setMem_keys (m : Memory) : (s.setMem m).keys = s.keys := rfl
@[simp] theorem State.setMem_wait (m : Memory) : (s.setMem m).wait = s.wait := rfl
@[simp] theorem State.setMem_status (m : Memory) : (s.setMem m).status = s.status := rfl
@[simp] theorem State.setMem_displayChanged (m : Memory) : (s.setMem m).displayChanged = s.displayChanged := rfl
@[simp] theorem State.setMem_diagUnmapped (m : Memory) : (s.setMem m).diagUnmapped = s.diagUnmapped := rfl
@[simp] theorem State.setMem_draws (m : Memory) : (s.setMem m).draws = s.draws := rfl
@[simp] theorem State.setMem_schedule (m : Memory) : (s.setMem m).schedule = s.schedule := rfl

/-! ## setWait -/

@[simp] theorem State.setWait_cfg (w : Wait) : (s.setWait w).cfg = s.cfg := rfl
@[simp] theorem State.setWait_v (w : Wait) : (s.setWait w).v = s.v := rfl
@[simp] theorem State.setWait_i (w : Wait) : (s.setWait w).i = s.i := rfl
@[simp] theorem State.setWait_pc (w : Wait) : (s.setWait w).pc = s.pc := rfl
@[simp] theorem State.setWait_sp (w : Wait) : (s.setWait w).sp = s.sp := rfl
@[simp] theorem State.setWait_stack (w : Wait) : (s.setWait w).stack = s.stack := rfl
@[simp] theorem State.setWait_dt (w : Wait) : (s.setWait w).dt = s.dt := rfl
@[simp] theorem State.setWait_st (w : Wait) : (s.setWait w).st = s.st := rfl
@[simp] theorem State.setWait_mem (w : Wait) : (s.setWait w).mem = s.mem := rfl
@[simp] theorem State.setWait_disp (w : Wait) : (s.setWait w).disp = s.disp := rfl
@[simp] theorem State.setWait_dirty (w : Wait) : (s.setWait w).dirty = s.dirty := rfl
@[simp] theorem State.setWait_keys (w : Wait) : (s.setWait w).keys = s.keys := rfl
@[simp] theorem State.setWait_wait (w : Wait) : (s.setWait w).wait = w := rfl
@[simp] theorem State.setWait_status (w : Wait) : (s.setWait w).status = s.status := rfl
@[simp] theorem State.setWait_displayChanged (w : Wait) : (s.setWait w).displayChanged = s.displayChanged := rfl
@[simp] theorem State.setWait_diagUnmapped (w : Wait) : (s.setWait w).diagUnmapped = s.diagUnmapped := rfl
@[simp] theorem State.setWait_draws (w : Wait) : (s.setWait w).draws = s.draws := rfl
@[simp] theorem State.setWait_schedule (w : Wait) : (s.setWait w).schedule = s.schedule := rfl

/-! ## advancePc -/

@[simp] theorem State.advancePc_cfg : (s.advancePc).cfg = s.cfg := rfl
@[simp] theorem State.advancePc_v : (s.advancePc).v = s.v := rfl
@[simp] theorem State.advancePc_i : (s.advancePc).i = s.i := rfl
@[simp] theorem State.advancePc_pc : (s.advancePc).pc = s.pc + 2 := rfl
@[simp] theorem State.advancePc_sp : (s.advancePc).sp = s.sp := rfl
@[simp] theorem State.advancePc_stack : (s.advancePc).stack = s.stack := rfl
@[simp] theorem State.advancePc_dt : (s.advancePc).dt = s.dt := rfl
@[simp] theorem State.advancePc_st : (s.advancePc).st = s.st := rfl
@[simp] theorem State.advancePc_mem : (s.advancePc).mem = s.mem := rfl
@[simp] theorem State.advancePc_disp : (s.advancePc).disp = s.disp := rfl
@[simp] theorem State.advancePc_dirty : (s.advancePc).dirty = s.dirty := rfl
@[simp] theorem State.advancePc_keys : (s.advancePc).keys = s.keys := rfl
@[simp] theorem State.advancePc_wait : (s.advancePc).wait = s.wait := rfl
@[simp] theorem State.advancePc_status : (s.advancePc).status = s.status := rfl
@[simp] theorem State.advancePc_displayChanged : (s.advancePc).displayChanged = s.displayChanged := rfl
@[simp] theorem State.advancePc_diagUnmapped : (s.advancePc).diagUnmapped = s.diagUnmapped := rfl
@[simp] theorem State.advancePc_draws : (s.advancePc).draws = s.draws := rfl
@[simp] theorem State.advancePc_schedule : (s.advancePc).schedule = s.schedule := rfl

/-! ## rewindPc -/

@[simp] theorem State.rewindPc_cfg : (s.rewindPc).cfg = s.cfg := rfl
@[simp] theorem State.rewindPc_v : (s.rewindPc).v = s.v := rfl
@[simp] theorem State.rewindPc_i : (s.rewindPc).i = s.i := rfl
@[simp] theorem State.rewindPc_pc : (s.rewindPc).pc = s.pc - 2 := rfl
@[simp] theorem State.rewindPc_sp : (s.rewindPc).sp = s.sp := rfl
@[simp] theorem State.rewindPc_stack : (s.rewindPc).stack = s.stack := rfl
@[simp] theorem State.rewindPc_dt : (s.rewindPc).dt = s.dt := rfl
@[simp] theorem State.rewindPc_st : (s.rewindPc).st = s.st := rfl
@[simp] theorem State.rewindPc_mem : (s.rewindPc).mem = s.mem := rfl
@[simp] theorem State.rewindPc_disp : (s.rewindPc).disp = s.disp := rfl
@[simp] theorem State.rewindPc_dirty : (s.rewindPc).dirty = s.dirty := rfl
@[simp] theorem State.rewindPc_keys : (s.rewindPc).keys = s.keys := rfl
@[simp] theorem State.rewindPc_wait : (s.rewindPc).wait = s.wait := rfl
@[simp] theorem State.rewindPc_status : (s.rewindPc).status = s.status := rfl
@[simp] theorem State.rewindPc_displayChanged : (s.rewindPc).displayChanged = s.displayChanged := rfl
@[simp] theorem State.rewindPc_diagUnmapped : (s.rewindPc).diagUnmapped = s.diagUnmapped := rfl
@[simp] theorem State.rewindPc_draws : (s.rewindPc).draws = s.draws := rfl
@[simp] theorem State.rewindPc_schedule : (s.rewindPc).schedule = s.schedule := rfl

/-! ## showGrid -/

@[simp] theorem State.showGrid_cfg (d : Grid) : (s.showGrid d).cfg = s.cfg := rfl
@[simp] theorem State.showGrid_v (d : Grid) : (s.showGrid d).v = s.v := rfl
@[simp] theorem State.showGrid_i (d : Grid) : (s.showGrid d).i = s.i := rfl
@[simp] theorem State.showGrid_pc (d : Grid) : (s.showGrid d).pc = s.pc := rfl
@[simp] theorem State.showGrid_sp (d : Grid) : (s.showGrid d).sp = s.sp := rfl
@[simp] theorem State.showGrid_stack (d : Grid) : (s.showGrid d).stack = s.stack := rfl
@[simp] theorem State.showGrid_dt (d : Grid) : (s.showGrid d).dt = s.dt := rfl
@[simp] theorem State.showGrid_st (d : Grid) : (s.showGrid d).st = s.st := rfl
@[simp] theorem State.showGrid_mem (d : Grid) : (s.showGrid d).mem = s.mem := rfl
@[simp] theorem State.showGrid_disp (d : Grid) : (s.showGrid d).disp = d := rfl
@[simp] theorem State.showGrid_dirty (d : Grid) : (s.showGrid d).dirty = true := rfl
@[simp] theorem State.showGrid_keys (d : Grid) : (s.showGrid d).keys = s.keys := rfl
@[simp] theorem State.showGrid_wait (d : Grid) : (s.showGrid d).wait = s.wait := rfl
@[simp] theorem State.showGrid_status (d : Grid) : (s.showGrid d).status = s.status := rfl
@[simp] theorem State.showGrid_displayChanged (d : Grid) : (s.showGrid d).displayChanged = true := rfl
@[simp] theorem State.showGrid_diagUnmapped (d : Grid) : (s.showGrid d).diagUnmapped = s.diagUnmapped := rfl
@[simp] theorem State.showGrid_draws (d : Grid) : (s.showGrid d).draws = s.draws := rfl
@[simp] theorem State.showGrid_schedule (d : Grid) : (s.showGrid d).schedule = s.schedule := rfl

/-! ## clearPulses -/

@[simp] theorem State.clearPulses_cfg : (s.clearPulses).cfg = s.cfg := rfl
@[simp] theorem State.clearPulses_v : (s.clearPulses).v = s.v := rfl
@[simp] theorem State.clearPulses_i : (s.clearPulses).i = s.i := rfl
@[simp] theorem State.clearPulses_pc : (s.clearPulses).pc = s.pc := rfl
@[simp] theorem State.clearPulses_sp : (s.clearPulses).sp = s.sp := rfl
@[simp] theorem State.clearPulses_stack : (s.clearPulses).stack = s.stack := rfl
@[simp] theorem State.clearPulses_dt : (s.clearPulses).dt = s.dt := rfl
@[simp] theorem State.clearPulses_st : (s.clearPulses).st = s.st := rfl
@[simp] theorem State.clearPulses_mem : (s.clearPulses).mem = s.mem := rfl
@[simp] theorem State.clearPulses_disp : (s.clearPulses).disp = s.disp := rfl
@[simp] theorem State.clearPulses_dirty : (s.clearPulses).dirty = s.dirty := rfl
@[simp] theorem State.clearPulses_keys : (s.clearPulses).keys = s.keys := rfl
@[simp] theorem State.clearPulses_wait : (s.clearPulses).wait = s.wait := rfl
@[simp] theorem State.clearPulses_status : (s.clearPulses).status = s.status := rfl
@[simp] theorem State.clearPulses_displayChanged : (s.clearPulses).displayChanged = false := rfl
@[simp] theorem State.clearPulses_diagUnmapped : (s.clearPulses).diagUnmapped = none := rfl
@[simp] theorem State.clearPulses_draws : (s.clearPulses).draws = s.draws := rfl
@[simp] theorem State.clearPulses_schedule : (s.clearPulses).schedule = s.schedule := rfl

/-! ## raiseDiag -/

@[simp] theorem State.raiseDiag_cfg (w : Word) : (s.raiseDiag w).cfg = s.cfg := rfl
@[simp] theorem State.raiseDiag_v (w : Word) : (s.raiseDiag w).v = s.v := rfl
@[simp] theorem State.raiseDiag_i (w : Word) : (s.raiseDiag w).i = s.i := rfl
@[simp] theorem State.raiseDiag_pc (w : Word) : (s.raiseDiag w).pc = s.pc := rfl
@[simp] theorem State.raiseDiag_sp (w : Word) : (s.raiseDiag w).sp = s.sp := rfl
@[simp] theorem State.raiseDiag_stack (w : Word) : (s.raiseDiag w).stack = s.stack := rfl
@[simp] theorem State.raiseDiag_dt (w : Word) : (s.raiseDiag w).dt = s.dt := rfl
@[simp] theorem State.raiseDiag_st (w : Word) : (s.raiseDiag w).st = s.st := rfl
@[simp] theorem State.raiseDiag_mem (w : Word) : (s.raiseDiag w).mem = s.mem := rfl
@[simp] theorem State.raiseDiag_disp (w : Word) : (s.raiseDiag w).disp = s.disp := rfl
@[simp] theorem State.raiseDiag_dirty (w : Word) : (s.raiseDiag w).dirty = s.dirty := rfl
@[simp] theorem State.raiseDiag_keys (w : Word) : (s.raiseDiag w).keys = s.keys := rfl
@[simp] theorem State.raiseDiag_wait (w : Word) : (s.raiseDiag w).wait = s.wait := rfl
@[simp] theorem State.raiseDiag_status (w : Word) : (s.raiseDiag w).status = s.status := rfl
@[simp] theorem State.raiseDiag_displayChanged (w : Word) : (s.raiseDiag w).displayChanged = s.displayChanged := rfl
@[simp] theorem State.raiseDiag_diagUnmapped (w : Word) : (s.raiseDiag w).diagUnmapped = some ⟨w, s.pc - 2⟩ := rfl
@[simp] theorem State.raiseDiag_draws (w : Word) : (s.raiseDiag w).draws = s.draws := rfl
@[simp] theorem State.raiseDiag_schedule (w : Word) : (s.raiseDiag w).schedule = s.schedule := rfl

/-! ## countDraw -/

@[simp] theorem State.countDraw_cfg : (s.countDraw).cfg = s.cfg := rfl
@[simp] theorem State.countDraw_v : (s.countDraw).v = s.v := rfl
@[simp] theorem State.countDraw_i : (s.countDraw).i = s.i := rfl
@[simp] theorem State.countDraw_pc : (s.countDraw).pc = s.pc := rfl
@[simp] theorem State.countDraw_sp : (s.countDraw).sp = s.sp := rfl
@[simp] theorem State.countDraw_stack : (s.countDraw).stack = s.stack := rfl
@[simp] theorem State.countDraw_dt : (s.countDraw).dt = s.dt := rfl
@[simp] theorem State.countDraw_st : (s.countDraw).st = s.st := rfl
@[simp] theorem State.countDraw_mem : (s.countDraw).mem = s.mem := rfl
@[simp] theorem State.countDraw_disp : (s.countDraw).disp = s.disp := rfl
@[simp] theorem State.countDraw_dirty : (s.countDraw).dirty = s.dirty := rfl
@[simp] theorem State.countDraw_keys : (s.countDraw).keys = s.keys := rfl
@[simp] theorem State.countDraw_wait : (s.countDraw).wait = s.wait := rfl
@[simp] theorem State.countDraw_status : (s.countDraw).status = s.status := rfl
@[simp] theorem State.countDraw_displayChanged : (s.countDraw).displayChanged = s.displayChanged := rfl
@[simp] theorem State.countDraw_diagUnmapped : (s.countDraw).diagUnmapped = s.diagUnmapped := rfl
@[simp] theorem State.countDraw_draws : (s.countDraw).draws = s.draws + 1 := rfl
@[simp] theorem State.countDraw_schedule : (s.countDraw).schedule = s.schedule := rfl

/-! ## raiseFatal -/

@[simp] theorem State.raiseFatal_cfg (k : ErrorKind) (o : Option Word) (a : Word) : (s.raiseFatal k o a).cfg = s.cfg := rfl
@[simp] theorem State.raiseFatal_v (k : ErrorKind) (o : Option Word) (a : Word) : (s.raiseFatal k o a).v = s.v := rfl
@[simp] theorem State.raiseFatal_i (k : ErrorKind) (o : Option Word) (a : Word) : (s.raiseFatal k o a).i = s.i := rfl
@[simp] theorem State.raiseFatal_pc (k : ErrorKind) (o : Option Word) (a : Word) : (s.raiseFatal k o a).pc = s.pc := rfl
@[simp] theorem State.raiseFatal_sp (k : ErrorKind) (o : Option Word) (a : Word) : (s.raiseFatal k o a).sp = s.sp := rfl
@[simp] theorem State.raiseFatal_stack (k : ErrorKind) (o : Option Word) (a : Word) : (s.raiseFatal k o a).stack = s.stack := rfl
@[simp] theorem State.raiseFatal_dt (k : ErrorKind) (o : Option Word) (a : Word) : (s.raiseFatal k o a).dt = s.dt := rfl
@[simp] theorem State.raiseFatal_st (k : ErrorKind) (o : Option Word) (a : Word) : (s.raiseFatal k o a).st = s.st := rfl
@[simp] theorem State.raiseFatal_mem (k : ErrorKind) (o : Option Word) (a : Word) : (s.raiseFatal k o a).mem = s.mem := rfl
@[simp] theorem State.raiseFatal_disp (k : ErrorKind) (o : Option Word) (a : Word) : (s.raiseFatal k o a).disp = s.disp := rfl
@[simp] theorem State.raiseFatal_dirty (k : ErrorKind) (o : Option Word) (a : Word) : (s.raiseFatal k o a).dirty = s.dirty := rfl
@[simp] theorem State.raiseFatal_keys (k : ErrorKind) (o : Option Word) (a : Word) : (s.raiseFatal k o a).keys = s.keys := rfl
@[simp] theorem State.raiseFatal_wait (k : ErrorKind) (o : Option Word) (a : Word) : (s.raiseFatal k o a).wait = s.wait := rfl
@[simp] theorem State.raiseFatal_status (k : ErrorKind) (o : Option Word) (a : Word) : (s.raiseFatal k o a).status = .halted ⟨k, o, a⟩ := rfl
@[simp] theorem State.raiseFatal_displayChanged (k : ErrorKind) (o : Option Word) (a : Word) : (s.raiseFatal k o a).displayChanged = s.displayChanged := rfl
@[simp] theorem State.raiseFatal_diagUnmapped (k : ErrorKind) (o : Option Word) (a : Word) : (s.raiseFatal k o a).diagUnmapped = s.diagUnmapped := rfl
@[simp] theorem State.raiseFatal_draws (k : ErrorKind) (o : Option Word) (a : Word) : (s.raiseFatal k o a).draws = s.draws := rfl
@[simp] theorem State.raiseFatal_schedule (k : ErrorKind) (o : Option Word) (a : Word) : (s.raiseFatal k o a).schedule = s.schedule := rfl

/-! ## raiseExec -/

@[simp] theorem State.raiseExec_cfg (k : ErrorKind) (j : Instr) : (s.raiseExec k j).cfg = s.cfg := rfl
@[simp] theorem State.raiseExec_v (k : ErrorKind) (j : Instr) : (s.raiseExec k j).v = s.v := rfl
@[simp] theorem State.raiseExec_i (k : ErrorKind) (j : Instr) : (s.raiseExec k j).i = s.i := rfl
@[simp] theorem State.raiseExec_pc (k : ErrorKind) (j : Instr) : (s.raiseExec k j).pc = s.pc := rfl
@[simp] theorem State.raiseExec_sp (k : ErrorKind) (j : Instr) : (s.raiseExec k j).sp = s.sp := rfl
@[simp] theorem State.raiseExec_stack (k : ErrorKind) (j : Instr) : (s.raiseExec k j).stack = s.stack := rfl
@[simp] theorem State.raiseExec_dt (k : ErrorKind) (j : Instr) : (s.raiseExec k j).dt = s.dt := rfl
@[simp] theorem State.raiseExec_st (k : ErrorKind) (j : Instr) : (s.raiseExec k j).st = s.st := rfl
@[simp] theorem State.raiseExec_mem (k : ErrorKind) (j : Instr) : (s.raiseExec k j).mem = s.mem := rfl
@[simp] theorem State.raiseExec_disp (k : ErrorKind) (j : Instr) : (s.raiseExec k j).disp = s.disp := rfl
@[simp] theorem State.raiseExec_dirty (k : ErrorKind) (j : Instr) : (s.raiseExec k j).dirty = s.dirty := rfl
@[simp] theorem State.raiseExec_keys (k : ErrorKind) (j : Instr) : (s.raiseExec k j).keys = s.keys := rfl
@[simp] theorem State.raiseExec_wait (k : ErrorKind) (j : Instr) : (s.raiseExec k j).wait = s.wait := rfl
@[simp] theorem State.raiseExec_status (k : ErrorKind) (j : Instr) : (s.raiseExec k j).status = .halted ⟨k, some (encode j), s.pc - 2⟩ := rfl
@[simp] theorem State.raiseExec_displayChanged (k : ErrorKind) (j : Instr) : (s.raiseExec k j).displayChanged = s.displayChanged := rfl
@[simp] theorem State.raiseExec_diagUnmapped (k : ErrorKind) (j : Instr) : (s.raiseExec k j).diagUnmapped = s.diagUnmapped := rfl
@[simp] theorem State.raiseExec_draws (k : ErrorKind) (j : Instr) : (s.raiseExec k j).draws = s.draws := rfl
@[simp] theorem State.raiseExec_schedule (k : ErrorKind) (j : Instr) : (s.raiseExec k j).schedule = s.schedule := rfl

/-! ## setFlagThenReg -/

@[simp] theorem State.setFlagThenReg_cfg (x : Reg) (f b : Byte) : (s.setFlagThenReg x f b).cfg = s.cfg := rfl
@[simp] theorem State.setFlagThenReg_v (x : Reg) (f b : Byte) : (s.setFlagThenReg x f b).v = (s.v.set 15 f).set x.val b x.isLt := rfl
@[simp] theorem State.setFlagThenReg_i (x : Reg) (f b : Byte) : (s.setFlagThenReg x f b).i = s.i := rfl
@[simp] theorem State.setFlagThenReg_pc (x : Reg) (f b : Byte) : (s.setFlagThenReg x f b).pc = s.pc := rfl
@[simp] theorem State.setFlagThenReg_sp (x : Reg) (f b : Byte) : (s.setFlagThenReg x f b).sp = s.sp := rfl
@[simp] theorem State.setFlagThenReg_stack (x : Reg) (f b : Byte) : (s.setFlagThenReg x f b).stack = s.stack := rfl
@[simp] theorem State.setFlagThenReg_dt (x : Reg) (f b : Byte) : (s.setFlagThenReg x f b).dt = s.dt := rfl
@[simp] theorem State.setFlagThenReg_st (x : Reg) (f b : Byte) : (s.setFlagThenReg x f b).st = s.st := rfl
@[simp] theorem State.setFlagThenReg_mem (x : Reg) (f b : Byte) : (s.setFlagThenReg x f b).mem = s.mem := rfl
@[simp] theorem State.setFlagThenReg_disp (x : Reg) (f b : Byte) : (s.setFlagThenReg x f b).disp = s.disp := rfl
@[simp] theorem State.setFlagThenReg_dirty (x : Reg) (f b : Byte) : (s.setFlagThenReg x f b).dirty = s.dirty := rfl
@[simp] theorem State.setFlagThenReg_keys (x : Reg) (f b : Byte) : (s.setFlagThenReg x f b).keys = s.keys := rfl
@[simp] theorem State.setFlagThenReg_wait (x : Reg) (f b : Byte) : (s.setFlagThenReg x f b).wait = s.wait := rfl
@[simp] theorem State.setFlagThenReg_status (x : Reg) (f b : Byte) : (s.setFlagThenReg x f b).status = s.status := rfl
@[simp] theorem State.setFlagThenReg_displayChanged (x : Reg) (f b : Byte) : (s.setFlagThenReg x f b).displayChanged = s.displayChanged := rfl
@[simp] theorem State.setFlagThenReg_diagUnmapped (x : Reg) (f b : Byte) : (s.setFlagThenReg x f b).diagUnmapped = s.diagUnmapped := rfl
@[simp] theorem State.setFlagThenReg_draws (x : Reg) (f b : Byte) : (s.setFlagThenReg x f b).draws = s.draws := rfl
@[simp] theorem State.setFlagThenReg_schedule (x : Reg) (f b : Byte) : (s.setFlagThenReg x f b).schedule = s.schedule := rfl

/-! ## afterFetch -/

@[simp] theorem State.afterFetch_cfg : (s.afterFetch).cfg = s.cfg := rfl
@[simp] theorem State.afterFetch_v : (s.afterFetch).v = s.v := rfl
@[simp] theorem State.afterFetch_i : (s.afterFetch).i = s.i := rfl
@[simp] theorem State.afterFetch_pc : (s.afterFetch).pc = s.pc + 2 := rfl
@[simp] theorem State.afterFetch_sp : (s.afterFetch).sp = s.sp := rfl
@[simp] theorem State.afterFetch_stack : (s.afterFetch).stack = s.stack := rfl
@[simp] theorem State.afterFetch_dt : (s.afterFetch).dt = s.dt := rfl
@[simp] theorem State.afterFetch_st : (s.afterFetch).st = s.st := rfl
@[simp] theorem State.afterFetch_mem : (s.afterFetch).mem = s.mem := rfl
@[simp] theorem State.afterFetch_disp : (s.afterFetch).disp = s.disp := rfl
@[simp] theorem State.afterFetch_dirty : (s.afterFetch).dirty = s.dirty := rfl
@[simp] theorem State.afterFetch_keys : (s.afterFetch).keys = s.keys := rfl
@[simp] theorem State.afterFetch_wait : (s.afterFetch).wait = s.wait := rfl
@[simp] theorem State.afterFetch_status : (s.afterFetch).status = s.status := rfl
@[simp] theorem State.afterFetch_displayChanged : (s.afterFetch).displayChanged = false := rfl
@[simp] theorem State.afterFetch_diagUnmapped : (s.afterFetch).diagUnmapped = none := rfl
@[simp] theorem State.afterFetch_draws : (s.afterFetch).draws = s.draws := rfl
@[simp] theorem State.afterFetch_schedule : (s.afterFetch).schedule = s.schedule := rfl

/-! ## tick -/

@[simp] theorem State.tick_cfg : (s.tick).cfg = s.cfg := rfl
@[simp] theorem State.tick_v : (s.tick).v = s.v := rfl
@[simp] theorem State.tick_i : (s.tick).i = s.i := rfl
@[simp] theorem State.tick_pc : (s.tick).pc = s.pc := rfl
@[simp] theorem State.tick_sp : (s.tick).sp = s.sp := rfl
@[simp] theorem State.tick_stack : (s.tick).stack = s.stack := rfl
@[simp] theorem State.tick_dt : (s.tick).dt = countDown s.dt := rfl
@[simp] theorem State.tick_st : (s.tick).st = countDown s.st := rfl
@[simp] theorem State.tick_mem : (s.tick).mem = s.mem := rfl
@[simp] theorem State.tick_disp : (s.tick).disp = s.disp := rfl
@[simp] theorem State.tick_dirty : (s.tick).dirty = s.dirty := rfl
@[simp] theorem State.tick_keys : (s.tick).keys = s.keys := rfl
@[simp] theorem State.tick_wait : (s.tick).wait = s.wait := rfl
@[simp] theorem State.tick_status : (s.tick).status = s.status := rfl
@[simp] theorem State.tick_displayChanged : (s.tick).displayChanged = s.displayChanged := rfl
@[simp] theorem State.tick_diagUnmapped : (s.tick).diagUnmapped = s.diagUnmapped := rfl
@[simp] theorem State.tick_draws : (s.tick).draws = s.draws := rfl
@[simp] theorem State.tick_schedule : (s.tick).schedule = s.schedule := rfl

/-! ## setKey -/

@[simp] theorem State.setKey_cfg (k : Key) (h : Bool) : (s.setKey k h).cfg = s.cfg := rfl
@[simp] theorem State.setKey_v (k : Key) (h : Bool) : (s.setKey k h).v = s.v := rfl
@[simp] theorem State.setKey_i (k : Key) (h : Bool) : (s.setKey k h).i = s.i := rfl
@[simp] theorem State.setKey_pc (k : Key) (h : Bool) : (s.setKey k h).pc = s.pc := rfl
@[simp] theorem State.setKey_sp (k : Key) (h : Bool) : (s.setKey k h).sp = s.sp := rfl
@[simp] theorem State.setKey_stack (k : Key) (h : Bool) : (s.setKey k h).stack = s.stack := rfl
@[simp] theorem State.setKey_dt (k : Key) (h : Bool) : (s.setKey k h).dt = s.dt := rfl
@[simp] theorem State.setKey_st (k : Key) (h : Bool) : (s.setKey k h).st = s.st := rfl
@[simp] theorem State.setKey_mem (k : Key) (h : Bool) : (s.setKey k h).mem = s.mem := rfl
@[simp] theorem State.setKey_disp (k : Key) (h : Bool) : (s.setKey k h).disp = s.disp := rfl
@[simp] theorem State.setKey_dirty (k : Key) (h : Bool) : (s.setKey k h).dirty = s.dirty := rfl
@[simp] theorem State.setKey_keys (k : Key) (h : Bool) : (s.setKey k h).keys = s.keys.set k.val h k.isLt := rfl
@[simp] theorem State.setKey_wait (k : Key) (h : Bool) : (s.setKey k h).wait = s.wait := rfl
@[simp] theorem State.setKey_status (k : Key) (h : Bool) : (s.setKey k h).status = s.status := rfl
@[simp] theorem State.setKey_displayChanged (k : Key) (h : Bool) : (s.setKey k h).displayChanged = s.displayChanged := rfl
@[simp] theorem State.setKey_diagUnmapped (k : Key) (h : Bool) : (s.setKey k h).diagUnmapped = s.diagUnmapped := rfl
@[simp] theorem State.setKey_draws (k : Key) (h : Bool) : (s.setKey k h).draws = s.draws := rfl
@[simp] theorem State.setKey_schedule (k : Key) (h : Bool) : (s.setKey k h).schedule = s.schedule := rfl

/-! ## ackDirty -/

@[simp] theorem State.ackDirty_cfg : (s.ackDirty).cfg = s.cfg := rfl
@[simp] theorem State.ackDirty_v : (s.ackDirty).v = s.v := rfl
@[simp] theorem State.ackDirty_i : (s.ackDirty).i = s.i := rfl
@[simp] theorem State.ackDirty_pc : (s.ackDirty).pc = s.pc := rfl
@[simp] theorem State.ackDirty_sp : (s.ackDirty).sp = s.sp := rfl
@[simp] theorem State.ackDirty_stack : (s.ackDirty).stack = s.stack := rfl
@[simp] theorem State.ackDirty_dt : (s.ackDirty).dt = s.dt := rfl
@[simp] theorem State.ackDirty_st : (s.ackDirty).st = s.st := rfl
@[simp] theorem State.ackDirty_mem : (s.ackDirty).mem = s.mem := rfl
@[simp] theorem State.ackDirty_disp : (s.ackDirty).disp = s.disp := rfl
@[simp] theorem State.ackDirty_dirty : (s.ackDirty).dirty = false := rfl
@[simp] theorem State.ackDirty_keys : (s.ackDirty).keys = s.keys := rfl
@[simp] theorem State.ackDirty_wait : (s.ackDirty).wait = s.wait := rfl
@[simp] theorem State.ackDirty_status : (s.ackDirty).status = s.status := rfl
@[simp] theorem State.ackDirty_displayChanged : (s.ackDirty).displayChanged = s.displayChanged := rfl
@[simp] theorem State.ackDirty_diagUnmapped : (s.ackDirty).diagUnmapped = s.diagUnmapped := rfl
@[simp] theorem State.ackDirty_draws : (s.ackDirty).draws = s.draws := rfl
@[simp] theorem State.ackDirty_schedule : (s.ackDirty).schedule = s.schedule := rfl

/-! ## dropEvent -/

@[simp] theorem State.dropEvent_cfg : (s.dropEvent).cfg = s.cfg := rfl
@[simp] theorem State.dropEvent_v : (s.dropEvent).v = s.v := rfl
@[simp] theorem State.dropEvent_i : (s.dropEvent).i = s.i := rfl
@[simp] theorem State.dropEvent_pc : (s.dropEvent).pc = s.pc := rfl
@[simp] theorem State.dropEvent_sp : (s.dropEvent).sp = s.sp := rfl
@[simp] theorem State.dropEvent_stack : (s.dropEvent).stack = s.stack := rfl
@[simp] theorem State.dropEvent_dt : (s.dropEvent).dt = s.dt := rfl
@[simp] theorem State.dropEvent_st : (s.dropEvent).st = s.st := rfl
@[simp] theorem State.dropEvent_mem : (s.dropEvent).mem = s.mem := rfl
@[simp] theorem State.dropEvent_disp : (s.dropEvent).disp = s.disp := rfl
@[simp] theorem State.dropEvent_dirty : (s.dropEvent).dirty = s.dirty := rfl
@[simp] theorem State.dropEvent_keys : (s.dropEvent).keys = s.keys := rfl
@[simp] theorem State.dropEvent_wait : (s.dropEvent).wait = s.wait := rfl
@[simp] theorem State.dropEvent_status : (s.dropEvent).status = s.status := rfl
@[simp] theorem State.dropEvent_displayChanged : (s.dropEvent).displayChanged = s.displayChanged := rfl
@[simp] theorem State.dropEvent_diagUnmapped : (s.dropEvent).diagUnmapped = s.diagUnmapped := rfl
@[simp] theorem State.dropEvent_draws : (s.dropEvent).draws = s.draws := rfl
@[simp] theorem State.dropEvent_schedule : (s.dropEvent).schedule = s.schedule.tail := rfl

end Sys2Proof.Machine
end

