-- ==== Sys2Proof/Laws/Ops.lean ====
section
/-! SUPPORT. What the shared operations over registers, stack and keys do, each said once. -/

namespace Sys2Proof.Machine

/-! ## Registers -/

theorem State.reg_setReg (s : State) (x r : Reg) (b : Byte) : (s.setReg x b).reg r = if r = x then b else s.reg r := by
  simp only [State.reg, State.setReg, Vector.get_eq_getElem, Vector.getElem_set, Fin.ext_iff, eq_comm]

theorem State.reg_setReg_self (s : State) (x : Reg) (b : Byte) : (s.setReg x b).reg x = b := by
  rw [State.reg_setReg, if_pos rfl]

theorem State.reg_setReg_ne (s : State) {x r : Reg} (b : Byte) (h : r ≠ x) : (s.setReg x b).reg r = s.reg r := by
  rw [State.reg_setReg, if_neg h]

/-- A flag and a result: `V[X]` has the result, VF the flag unless it is `V[X]`, and no other register changes. -/
theorem State.reg_setFlagThenReg (s : State) (x r : Reg) (f b : Byte) :
    (s.setFlagThenReg x f b).reg r = if r = x then b else if r = VF then f else s.reg r := by
  simp only [State.setFlagThenReg, State.reg_setReg]

/-- The registers are what `reg` reads. -/
theorem State.v_ext {s t : State} (h : ∀ r, s.reg r = t.reg r) : s.v = t.v := by
  apply Vector.ext
  intro k hk
  exact h ⟨k, hk⟩

theorem State.reg_congr {s t : State} (h : s.v = t.v) (r : Reg) : s.reg r = t.reg r := by
  simp only [State.reg, h]

@[simp] theorem State.reg_setI (s : State) (w : Word) (r : Reg) : (s.setI w).reg r = s.reg r := rfl
@[simp] theorem State.reg_setPc (s : State) (w : Word) (r : Reg) : (s.setPc w).reg r = s.reg r := rfl
@[simp] theorem State.reg_setDt (s : State) (b : Byte) (r : Reg) : (s.setDt b).reg r = s.reg r := rfl
@[simp] theorem State.reg_setSt (s : State) (b : Byte) (r : Reg) : (s.setSt b).reg r = s.reg r := rfl
@[simp] theorem State.reg_setMem (s : State) (m : Memory) (r : Reg) : (s.setMem m).reg r = s.reg r := rfl
@[simp] theorem State.reg_setWait (s : State) (w : Wait) (r : Reg) : (s.setWait w).reg r = s.reg r := rfl
@[simp] theorem State.reg_showGrid (s : State) (d : Grid) (r : Reg) : (s.showGrid d).reg r = s.reg r := rfl
@[simp] theorem State.reg_countDraw (s : State) (r : Reg) : s.countDraw.reg r = s.reg r := rfl

/-- Bytes into registers from `k` on: those registers hold them, no other register changes. -/
theorem State.reg_setRegsFrom (s : State) (k : Nat) (bs : List Byte) (r : Reg) :
    (s.setRegsFrom k bs).reg r = if k ≤ r.val ∧ r.val < k + bs.length then bs.getD (r.val - k) 0 else s.reg r := by
  induction bs generalizing s k with
  | nil => simp only [State.setRegsFrom, List.length_nil]; rw [if_neg (by omega)]
  | cons b bs ih =>
    simp only [State.setRegsFrom, ih, List.length_cons]
    by_cases h1 : k + 1 ≤ r.val ∧ r.val < k + 1 + bs.length
    · rw [if_pos h1, if_pos (by omega), show r.val - k = (r.val - (k + 1)) + 1 by omega, List.getD_cons_succ]
    · rw [if_neg h1]
      by_cases h2 : r.val = k
      · have hk : k < 16 := h2 ▸ r.isLt
        rw [dif_pos hk, if_pos (by omega), State.reg_setReg, if_pos (Fin.ext h2)]
        simp [h2]
      · rw [if_neg (by omega)]
        split
        · rw [State.reg_setReg, if_neg]; exact fun h => h2 (congrArg Fin.val h)
        · rfl

/-- Bytes into registers change nothing but the registers. -/
theorem State.setRegsFrom_frame (s : State) (k : Nat) (bs : List Byte) :
    s.setRegsFrom k bs = { s with v := (s.setRegsFrom k bs).v } := by
  induction bs generalizing s k with
  | nil => rfl
  | cons b bs ih =>
    simp only [State.setRegsFrom]
    rw [ih]
    split <;> rfl

/-! ## Skips -/

theorem State.skipIf_true (s : State) : s.skipIf true = s.advancePc := rfl
theorem State.skipIf_false (s : State) : s.skipIf false = s := rfl

/-- A skip changes nothing but `PC`. -/
theorem State.skipIf_eq (s : State) (c : Bool) : s.skipIf c = s.setPc (if c then s.pc + 2 else s.pc) := by
  cases c <;> rfl

/-! ## Call stack -/

/-- A push: it goes through exactly when `SP < 16`, and then it writes the slot `SP` and counts it. -/
theorem State.pushPc_some {s t : State} (h : s.pushPc = some t) :
    ∃ hs : s.sp.val < 16, t = { s with stack := s.stack.set s.sp.val s.pc hs, sp := ⟨s.sp.val + 1, by omega⟩ } := by
  simp only [State.pushPc] at h
  split at h
  · exact ⟨‹_›, (Option.some.inj h).symm⟩
  · cases h

theorem State.pushPc_none {s : State} : s.pushPc = none ↔ s.sp = 16 := by
  simp only [State.pushPc]
  split <;> simp [Fin.ext_iff] <;> omega

/-- A pop: it goes through exactly when `SP > 0`, and then `PC` is the slot below `SP`, which is released. -/
theorem State.popPc_some {s t : State} (h : s.popPc = some t) :
    ∃ hs : 0 < s.sp.val, t = { s with pc := s.stack.get ⟨s.sp.val - 1, by omega⟩, sp := ⟨s.sp.val - 1, by omega⟩ } := by
  simp only [State.popPc] at h
  split at h
  · exact ⟨‹_›, (Option.some.inj h).symm⟩
  · cases h

theorem State.popPc_none {s : State} : s.popPc = none ↔ s.sp = 0 := by
  simp only [State.popPc]
  split
  · rename_i h
    exact ⟨(nomatch ·), fun h' => absurd h (by rw [h']; decide)⟩
  · rename_i h
    exact ⟨fun _ => Fin.ext (by show s.sp.val = 0; omega), fun _ => rfl⟩

/-! ## Flags -/

theorem flagByte_toNat (b : Bool) : (flagByte b).toNat = if b then 1 else 0 := by cases b <;> rfl

/-! ## Keys -/

theorem keyOperand_some {b : Byte} {k : Key} (h : keyOperand b = some k) : b.toNat = k.val := by
  simp only [keyOperand] at h
  split at h
  · rw [← Option.some.inj h]
  · cases h

theorem keyOperand_none {b : Byte} : keyOperand b = none ↔ 15 < b.toNat := by
  simp only [keyOperand]
  split <;> simp <;> omega

theorem keyOperand_of_le {b : Byte} (h : b.toNat < 16) : keyOperand b = some ⟨b.toNat, h⟩ := by
  simp only [keyOperand]; rw [dif_pos h]

/-- The scan gives a held key, and no lower key is held. -/
theorem lowestHeld_some {s : State} {k : Key} (h : lowestHeld s = some k) :
    s.keyHeld k = true ∧ ∀ j < k, s.keyHeld j = false := by
  obtain ⟨hk, as, bs, hl, has⟩ := List.find?_eq_some_iff_append.1 h
  refine ⟨hk, fun j hj => ?_⟩
  have hsort : (List.finRange 16).Pairwise (· < ·) := by decide
  have hmem : j ∈ as ++ k :: bs := hl ▸ List.mem_finRange j
  rw [hl] at hsort
  rcases List.mem_append.1 hmem with hm | hm
  · simpa using has j hm
  · rcases List.mem_cons.1 hm with rfl | hm
    · exact absurd hj (lt_irrefl _)
    · have := (List.pairwise_cons.1 (List.pairwise_append.1 hsort).2.1).1 j hm
      exact absurd (hj.trans this) (lt_irrefl _)

/-- The scan finds nothing exactly when no key is held. -/
theorem lowestHeld_none {s : State} : lowestHeld s = none ↔ ∀ k, s.keyHeld k = false := by
  simp [lowestHeld, List.find?_eq_none]

theorem State.keyHeld_setKey (s : State) (k j : Key) (h : Bool) :
    (s.setKey k h).keyHeld j = if j = k then h else s.keyHeld j := by
  simp only [State.keyHeld, State.setKey, Vector.get_eq_getElem, Vector.getElem_set, Fin.ext_iff, eq_comm]

end Sys2Proof.Machine
end

