-- ==== Sys2Proof/Laws/Display.lean ====
section
/-! SUPPORT. The laws of the raster engine: the shape of the grid, and what drawing leaves in each cell. -/

namespace Sys2Proof.Machine

/-- A grid of `h` rows of `w` cells. -/
def gridShape (h w : Nat) (d : Grid) : Prop := d.length = h ∧ ∀ row ∈ d, row.length = w

theorem gridShape_blank (c : Config) : gridShape c.height c.width (blankGrid c) := by
  refine ⟨List.length_replicate, fun row hr => ?_⟩
  rw [(List.mem_replicate.1 hr).2, List.length_replicate]

theorem pixelAt_blank (c : Config) (r k : Nat) : pixelAt (blankGrid c) r k = false := by
  simp only [pixelAt, blankGrid, List.getD_eq_getElem?_getD, List.getElem?_replicate]
  split <;> simp [List.getElem?_replicate]
  split <;> rfl

theorem gridShape.row_length {h w : Nat} {d : Grid} (hd : gridShape h w d) {r : Nat} (hr : r < h) :
    (d.getD r []).length = w := by
  have hl : r < d.length := hd.1 ▸ hr
  rw [List.getD_eq_getElem _ _ hl]
  exact hd.2 _ (List.getElem_mem hl)

theorem gridShape.setPixel {h w : Nat} {d : Grid} (hd : gridShape h w d) (r c : Nat) (b : Bool) :
    gridShape h w (setPixel d r c b) := by
  refine ⟨by rw [Machine.setPixel, List.length_set, hd.1], fun row hrow => ?_⟩
  by_cases hr : r < h
  · rcases List.mem_or_eq_of_mem_set hrow with hm | rfl
    · exact hd.2 row hm
    · rw [List.length_set, hd.row_length hr]
  · rw [Machine.setPixel, List.set_eq_of_length_le (by have := hd.1; omega)] at hrow
    exact hd.2 row hrow

/-- Writing a cell of the grid changes that cell and no other. -/
theorem pixelAt_setPixel {h w : Nat} {d : Grid} (hd : gridShape h w d) {r c : Nat} (hr : r < h) (hc : c < w) (b : Bool)
    (r' c' : Nat) : pixelAt (setPixel d r c b) r' c' = if r' = r ∧ c' = c then b else pixelAt d r' c' := by
  have hrow := hd.row_length hr
  have hl : r < d.length := hd.1 ▸ hr
  simp only [pixelAt, setPixel, List.getD_eq_getElem?_getD] at *
  by_cases h1 : r' = r
  · subst h1
    rw [List.getElem?_set_self hl]
    rw [Option.getD_some]
    by_cases h2 : c' = c
    · subst h2
      rw [List.getElem?_set_self (by omega), if_pos ⟨rfl, rfl⟩]; rfl
    · rw [List.getElem?_set_ne (fun h => h2 h.symm), if_neg (fun h => h2 h.2)]
  · rw [List.getElem?_set_ne (fun h => h1 h.symm), if_neg (fun h => h1 h.1)]

theorem spriteBits_length (b : Byte) : (spriteBits b).length = 8 := rfl

theorem spriteBits_getD (b : Byte) (k : Nat) (h : k < 8) : (spriteBits b).getD k false = b.getLsbD (7 - k) := by
  simp [spriteBits, List.getD_eq_getElem?_getD, h]

/-! ## One sprite row -/

theorem drawBits_shape {h w : Nat} (r c : Nat) (bits : List Bool) (cv : Canvas) (hd : gridShape h w cv.1) :
    gridShape h w (drawBits w r c bits cv).1 := by
  induction bits generalizing c cv with
  | nil => exact hd
  | cons b bits ih =>
    simp only [drawBits]
    split
    · exact hd
    · exact ih _ _ (hd.setPixel r c _)

/-- The cells after the bits of a row: those under a bit and inside the grid are XORed with it, no other changes. -/
theorem drawBits_pixel {h w : Nat} {r : Nat} (hr : r < h) (c : Nat) (bits : List Bool) (cv : Canvas)
    (hd : gridShape h w cv.1) (r' c' : Nat) :
    pixelAt (drawBits w r c bits cv).1 r' c' =
      (pixelAt cv.1 r' c' ^^ (decide (r' = r ∧ c ≤ c' ∧ c' < c + bits.length ∧ c' < w) && bits.getD (c' - c) false)) := by
  induction bits generalizing c cv with
  | nil => simp [drawBits]
  | cons b bits ih =>
    simp only [drawBits]
    by_cases hw : w ≤ c
    · rw [if_pos hw]
      have : ¬(r' = r ∧ c ≤ c' ∧ c' < c + (b :: bits).length ∧ c' < w) := by omega
      rw [decide_eq_false this, Bool.false_and, Bool.xor_false]
    · rw [if_neg hw, ih (c + 1) _ (hd.setPixel r c _)]
      simp only [plot]
      rw [pixelAt_setPixel hd hr (by omega)]
      by_cases h1 : r' = r ∧ c' = c
      · obtain ⟨rfl, rfl⟩ := h1
        have h2 : ¬(r' = r' ∧ c' + 1 ≤ c' ∧ c' < c' + 1 + bits.length ∧ c' < w) := by omega
        have h3 : r' = r' ∧ c' ≤ c' ∧ c' < c' + (b :: bits).length ∧ c' < w :=
          ⟨rfl, le_rfl, by rw [List.length_cons]; omega, by omega⟩
        rw [if_pos ⟨rfl, rfl⟩, decide_eq_false h2, decide_eq_true h3, Nat.sub_self, List.getD_cons_zero, Bool.false_and,
          Bool.xor_false, Bool.true_and]
      · rw [if_neg h1]
        by_cases h2 : r' = r ∧ c + 1 ≤ c' ∧ c' < c + 1 + bits.length ∧ c' < w
        · have h3 : r' = r ∧ c ≤ c' ∧ c' < c + (b :: bits).length ∧ c' < w := by rw [List.length_cons]; omega
          rw [decide_eq_true h2, decide_eq_true h3, show c' - c = (c' - (c + 1)) + 1 by omega, List.getD_cons_succ]
        · have h3 : ¬(r' = r ∧ c ≤ c' ∧ c' < c + (b :: bits).length ∧ c' < w) := by rw [List.length_cons]; omega
          rw [decide_eq_false h2, decide_eq_false h3, Bool.false_and, Bool.false_and]

/-- The collision after the bits of a row: a bit that was drawn was 1 over a cell that was 1. -/
theorem drawBits_collision {h w : Nat} {r : Nat} (hr : r < h) (c : Nat) (bits : List Bool) (cv : Canvas)
    (hd : gridShape h w cv.1) :
    (drawBits w r c bits cv).2 = true ↔
      cv.2 = true ∨ ∃ k < bits.length, c + k < w ∧ bits.getD k false = true ∧ pixelAt cv.1 r (c + k) = true := by
  induction bits generalizing c cv with
  | nil => simp [drawBits]
  | cons b bits ih =>
    simp only [drawBits]
    by_cases hw : w ≤ c
    · rw [if_pos hw]
      exact ⟨.inl, fun h => h.elim id fun ⟨k, _, hk, _⟩ => by omega⟩
    · rw [if_neg hw, ih (c + 1) _ (hd.setPixel r c _)]
      simp only [plot, Bool.or_eq_true, Bool.and_eq_true, List.length_cons]
      constructor
      · rintro ((h1 | ⟨h1, h2⟩) | ⟨k, hk, hkw, hb, hp⟩)
        · exact .inl h1
        · exact .inr ⟨0, by omega, by omega, by simpa using h1, by simpa using h2⟩
        · refine .inr ⟨k + 1, by omega, by omega, by simpa using hb, ?_⟩
          rw [pixelAt_setPixel hd hr (by omega), if_neg (by omega)] at hp
          rwa [show c + (k + 1) = c + 1 + k by omega]
      · rintro (h1 | ⟨k, hk, hkw, hb, hp⟩)
        · exact .inl (.inl h1)
        · cases k with
          | zero => exact .inl (.inr ⟨by simpa using hb, by simpa using hp⟩)
          | succ k =>
            refine .inr ⟨k, by omega, by omega, by simpa using hb, ?_⟩
            rw [pixelAt_setPixel hd hr (by omega), if_neg (by omega), show c + 1 + k = c + (k + 1) by omega]
            exact hp

/-! ## All sprite rows -/

theorem drawRows_shape {h w : Nat} (c r : Nat) (rows : List Byte) (cv : Canvas) (hd : gridShape h w cv.1) :
    gridShape h w (drawRows w c r rows cv).1 := by
  induction rows generalizing r cv with
  | nil => exact hd
  | cons b rows ih => exact ih _ _ (drawBits_shape r c _ cv hd)

/-- The sprite bit over a cell: the row's byte, most significant bit leftmost; false outside the drawn rectangle. -/
def spriteAt (width c r : Nat) (rows : List Byte) (r' c' : Nat) : Bool :=
  decide (r ≤ r' ∧ r' < r + rows.length ∧ c ≤ c' ∧ c' < c + 8 ∧ c' < width) &&
    (rows.getD (r' - r) 0).getLsbD (7 - (c' - c))

theorem spriteAt_eq_true {w c r : Nat} {rows : List Byte} {r' c' : Nat} : spriteAt w c r rows r' c' = true ↔
    (r ≤ r' ∧ r' < r + rows.length ∧ c ≤ c' ∧ c' < c + 8 ∧ c' < w) ∧
      (rows.getD (r' - r) 0).getLsbD (7 - (c' - c)) = true := by
  simp only [spriteAt, Bool.and_eq_true, decide_eq_true_eq]

theorem spriteAt_cons (w c r : Nat) (b : Byte) (rows : List Byte) (r' c' : Nat) :
    spriteAt w c r (b :: rows) r' c' = ((decide (r' = r ∧ c ≤ c' ∧ c' < c + (spriteBits b).length ∧ c' < w) &&
      (spriteBits b).getD (c' - c) false) ^^ spriteAt w c (r + 1) rows r' c') := by
  rw [spriteBits_length]
  by_cases h1 : r' = r
  · subst h1
    have h2 : spriteAt w c (r' + 1) rows r' c' = false := by
      rw [← Bool.not_eq_true, spriteAt_eq_true]; omega
    rw [h2, Bool.xor_false]
    by_cases h3 : c ≤ c' ∧ c' < c + 8 ∧ c' < w
    · rw [spriteBits_getD _ _ (by omega)]
      simp only [spriteAt, Nat.sub_self, List.getD_cons_zero]
      congr 1
      simp [h3]
    · have : ¬(r' = r' ∧ c ≤ c' ∧ c' < c + 8 ∧ c' < w) := fun h => h3 h.2
      have h4 : spriteAt w c r' (b :: rows) r' c' = false := by rw [← Bool.not_eq_true, spriteAt_eq_true]; omega
      rw [h4, decide_eq_false this, Bool.false_and]
  · have : ¬(r' = r ∧ c ≤ c' ∧ c' < c + 8 ∧ c' < w) := fun h => h1 h.1
    simp only [this, decide_false, Bool.false_and, Bool.false_xor]
    by_cases h2 : r + 1 ≤ r'
    · simp only [spriteAt, List.length_cons]
      rw [show r' - r = (r' - (r + 1)) + 1 by omega, List.getD_cons_succ]
      congr 1
      simp only [decide_eq_decide]; omega
    · have h3 : spriteAt w c r (b :: rows) r' c' = false := by rw [← Bool.not_eq_true, spriteAt_eq_true]; omega
      have h4 : spriteAt w c (r + 1) rows r' c' = false := by rw [← Bool.not_eq_true, spriteAt_eq_true]; omega
      rw [h3, h4]

/-- The cells after the sprite: each is XORed with the sprite bit over it. -/
theorem drawRows_pixel {h w : Nat} (c r : Nat) (rows : List Byte) (cv : Canvas) (hr : r + rows.length ≤ h)
    (hd : gridShape h w cv.1) (r' c' : Nat) :
    pixelAt (drawRows w c r rows cv).1 r' c' = (pixelAt cv.1 r' c' ^^ spriteAt w c r rows r' c') := by
  induction rows generalizing r cv with
  | nil => simp only [drawRows, spriteAt, List.length_nil]; rw [decide_eq_false (by omega)]; simp
  | cons b rows ih =>
    simp only [List.length_cons] at hr
    simp only [drawRows]
    rw [ih (r + 1) _ (by omega) (drawBits_shape r c _ cv hd), drawBits_pixel (by omega) c _ cv hd, spriteAt_cons,
      Bool.xor_assoc]

/-- The collision after the sprite: a sprite bit was 1 over a cell that was 1. -/
theorem drawRows_collision {h w : Nat} (c r : Nat) (rows : List Byte) (cv : Canvas) (hr : r + rows.length ≤ h)
    (hd : gridShape h w cv.1) :
    (drawRows w c r rows cv).2 = true ↔
      cv.2 = true ∨ ∃ r' c', spriteAt w c r rows r' c' = true ∧ pixelAt cv.1 r' c' = true := by
  induction rows generalizing r cv with
  | nil =>
    refine ⟨.inl, fun h => h.elim id fun ⟨r', c', h, _⟩ => ?_⟩
    have := (spriteAt_eq_true.1 h).1
    simp only [List.length_nil] at this; omega
  | cons b rows ih =>
    simp only [List.length_cons] at hr
    simp only [drawRows]
    rw [ih (r + 1) _ (by omega) (drawBits_shape r c _ cv hd), drawBits_collision (by omega) c _ cv hd, or_assoc]
    refine or_congr_right ?_
    constructor
    · rintro (⟨k, hk, hkw, hb, hp⟩ | ⟨r', c', hs, hp⟩)
      · refine ⟨r, c + k, ?_, hp⟩
        rw [spriteBits_length] at hk
        rw [spriteBits_getD _ _ hk] at hb
        rw [spriteAt_eq_true, List.length_cons, Nat.sub_self, List.getD_cons_zero, Nat.add_sub_cancel_left]
        exact ⟨by omega, hb⟩
      · have hs' := spriteAt_eq_true.1 hs
        rw [drawBits_pixel (by omega) c _ cv hd] at hp
        have : ¬(r' = r ∧ c ≤ c' ∧ c' < c + (spriteBits b).length ∧ c' < w) := by omega
        simp only [this, decide_false, Bool.false_and, Bool.xor_false] at hp
        refine ⟨r', c', ?_, hp⟩
        rw [spriteAt_cons, hs]
        simp only [this, decide_false, Bool.false_and, Bool.false_xor]
    · rintro ⟨r', c', hs, hp⟩
      have hs' := spriteAt_eq_true.1 hs
      by_cases h1 : r' = r
      · subst h1
        refine .inl ⟨c' - c, by rw [spriteBits_length]; omega, by omega, ?_, ?_⟩
        · rw [spriteBits_getD _ _ (by omega)]
          simpa using hs'.2
        · rwa [show c + (c' - c) = c' by omega]
      · refine .inr ⟨r', c', ?_, ?_⟩
        · have : ¬(r' = r ∧ c ≤ c' ∧ c' < c + (spriteBits b).length ∧ c' < w) := fun h => h1 h.1
          rw [spriteAt_cons] at hs
          simpa only [this, decide_false, Bool.false_and, Bool.false_xor] using hs
        · rw [drawBits_pixel (by omega) c _ cv hd]
          have : ¬(r' = r ∧ c ≤ c' ∧ c' < c + (spriteBits b).length ∧ c' < w) := fun h => h1 h.1
          simpa only [this, decide_false, Bool.false_and, Bool.xor_false] using hp

end Sys2Proof.Machine
end

