-- ==== Sys2Proof/Laws/Exec.lean ====
section
/-! SUPPORT. What a meaning with more than one outcome, a cycle and a step can do, each said once; that every meaning answers, and
that none reads the schedule. The meanings with one outcome are their own definition. -/

namespace Sys2Proof.Machine

/-! ## Raising an error -/

/-- Raising an error writes `status` and nothing else (60_exceptions.md R205). -/
theorem State.raiseExec_eq (s : State) (k : ErrorKind) (i : Instr) :
    s.raiseExec k i = { s with status := .halted ⟨k, some (encode i), s.pc - 2⟩ } := rfl

/-! ## Meanings with more than one outcome -/

theorem execRet_cases (s : State) :
    (s.sp = 0 ∧ execRet s = .next (s.raiseExec .stackUnderflow .ret)) ∨
    ∃ h : 0 < s.sp.val, execRet s = .next { s with
      pc := s.stack.get ⟨s.sp.val - 1, by omega⟩, sp := ⟨s.sp.val - 1, by omega⟩ } := by
  cases hp : s.popPc with
  | none => exact .inl ⟨State.popPc_none.1 hp, by simp only [execRet, hp]⟩
  | some t =>
    obtain ⟨h, rfl⟩ := State.popPc_some hp
    exact .inr ⟨h, by simp only [execRet, hp]⟩

theorem execCall_cases (nnn : Addr) (s : State) :
    (s.sp = 16 ∧ execCall nnn s = .next (s.raiseExec .stackOverflow (.call nnn))) ∨
    ∃ h : s.sp.val < 16, execCall nnn s = .next { s with
      pc := addrOperand nnn, stack := s.stack.set s.sp.val s.pc h, sp := ⟨s.sp.val + 1, by omega⟩ } := by
  cases hp : s.pushPc with
  | none => exact .inl ⟨State.pushPc_none.1 hp, by simp only [execCall, hp]⟩
  | some t =>
    obtain ⟨h, rfl⟩ := State.pushPc_some hp
    exact .inr ⟨h, by simp only [execCall, hp]; rfl⟩

theorem decimalDigits_length (b : Byte) : (decimalDigits b).length = 3 := rfl

theorem regsUpTo_length (s : State) (x : Reg) : (regsUpTo s x).length = x.val + 1 := by
  simp only [regsUpTo, List.length_take, Vector.length_toList]; omega

theorem regsUpTo_getD (s : State) (x k : Reg) (h : k ≤ x) : (regsUpTo s x).getD k.val 0 = s.reg k := by
  have hk : k.val ≤ x.val := h
  simp only [regsUpTo, List.getD_eq_getElem?_getD, List.getElem?_take, State.reg, Vector.get_eq_getElem]
  rw [if_pos (by omega)]
  simp

theorem execLdB_cases (x : Reg) (s : State) :
    (0x1000 < s.i.toNat + 3 ∧ execLdB x s = .next (s.raiseExec .memOutOfRange (.ldB x))) ∨
    (s.i.toNat + 3 ≤ 0x1000 ∧ execLdB x s = .next (s.setMem (s.mem.store s.i.toNat (decimalDigits (s.reg x))))) := by
  cases h : s.mem.writeBlock (dataBase s) (decimalDigits (s.reg x)) with
  | none => exact .inl ⟨(Memory.writeBlock_none.1 h).2, by simp only [execLdB, h]⟩
  | some m =>
    obtain ⟨hr, rfl⟩ := Memory.writeBlock_some h
    exact .inr ⟨hr.resolve_left (by rw [decimalDigits_length]; decide), by simp only [execLdB, h]; rfl⟩

theorem execStRegs_cases (x : Reg) (s : State) :
    (0x1000 < s.i.toNat + (x.val + 1) ∧ execStRegs x s = .next (s.raiseExec .memOutOfRange (.stRegs x))) ∨
    (s.i.toNat + (x.val + 1) ≤ 0x1000 ∧ execStRegs x s = .next (s.setMem (s.mem.store s.i.toNat (regsUpTo s x)))) := by
  cases h : s.mem.writeBlock (dataBase s) (regsUpTo s x) with
  | none =>
    have hr := (Memory.writeBlock_none.1 h).2
    rw [regsUpTo_length] at hr
    exact .inl ⟨hr, by simp only [execStRegs, h]⟩
  | some m =>
    obtain ⟨hr, rfl⟩ := Memory.writeBlock_some h
    rw [regsUpTo_length] at hr
    exact .inr ⟨hr.resolve_left (by omega), by simp only [execStRegs, h]; rfl⟩

theorem execLdRegs_cases (x : Reg) (s : State) :
    (0x1000 < s.i.toNat + (x.val + 1) ∧ execLdRegs x s = .next (s.raiseExec .memOutOfRange (.ldRegs x))) ∨
    (s.i.toNat + (x.val + 1) ≤ 0x1000 ∧ execLdRegs x s = .next
      (s.setRegsFrom 0 ((List.range (x.val + 1)).map fun k => s.mem.read (s.i.toNat + k)))) := by
  cases h : s.mem.readBlock (dataBase s) (x.val + 1) with
  | none => exact .inl ⟨(Memory.readBlock_none.1 h).2, by simp only [execLdRegs, h]⟩
  | some bs =>
    obtain ⟨hr, rfl⟩ := Memory.readBlock_some h
    exact .inr ⟨hr.resolve_left (by omega), by simp only [execLdRegs, h]; rfl⟩

/-- The rows a draw reads. -/
def spriteRows (s : State) (y : Reg) (n : Fin 16) : List Byte :=
  (List.range (rowsDrawn s y n)).map fun k => s.mem.read (s.i.toNat + k)

theorem spriteRows_length (s : State) (y : Reg) (n : Fin 16) : (spriteRows s y n).length = rowsDrawn s y n := by
  simp only [spriteRows, List.length_map, List.length_range]

/-- The display and the collision a draw leaves. -/
def drawnCanvas (x y : Reg) (n : Fin 16) (s : State) : Canvas :=
  drawRows s.cfg.width (startColumn s x) (startRow s y) (spriteRows s y n) (s.disp, false)

theorem execDrw_cases (x y : Reg) (n : Fin 16) (s : State) :
    (1 ≤ rowsDrawn s y n ∧ 0x1000 < s.i.toNat + rowsDrawn s y n ∧
      execDrw x y n s = .next (s.raiseExec .memOutOfRange (.drw x y n))) ∨
    ((rowsDrawn s y n = 0 ∨ s.i.toNat + rowsDrawn s y n ≤ 0x1000) ∧ execDrw x y n s = .next
      ((s.showGrid (drawnCanvas x y n s).1).setReg VF (flagByte (drawnCanvas x y n s).2))) := by
  cases h : s.mem.readBlock (dataBase s) (rowsDrawn s y n) with
  | none =>
    have hr := Memory.readBlock_none.1 h
    exact .inl ⟨hr.1, hr.2, by simp only [execDrw, h]⟩
  | some bs =>
    obtain ⟨hr, rfl⟩ := Memory.readBlock_some h
    exact .inr ⟨hr, by simp only [execDrw, h]; rfl⟩

/-- The rows a draw draws lie inside the display. -/
theorem rowsDrawn_le (s : State) (y : Reg) (n : Fin 16) (h : rowsDrawn s y n ≠ 0) :
    startRow s y + rowsDrawn s y n ≤ s.cfg.height := by
  simp only [rowsDrawn] at *; omega

theorem execSkp_cases (x : Reg) (s : State) :
    (15 < (s.reg x).toNat ∧ execSkp x s = .next (s.raiseExec .badKeyIndex (.skp x))) ∨
    ∃ k : Key, (s.reg x).toNat = k.val ∧ execSkp x s = .next (s.setPc (if s.keyHeld k then s.pc + 2 else s.pc)) := by
  cases h : keyOperand (s.reg x) with
  | none => exact .inl ⟨keyOperand_none.1 h, by simp only [execSkp, h]⟩
  | some k => exact .inr ⟨k, keyOperand_some h, by simp only [execSkp, h, State.skipIf_eq]⟩

theorem execSknp_cases (x : Reg) (s : State) :
    (15 < (s.reg x).toNat ∧ execSknp x s = .next (s.raiseExec .badKeyIndex (.sknp x))) ∨
    ∃ k : Key, (s.reg x).toNat = k.val ∧ execSknp x s = .next (s.setPc (if !s.keyHeld k then s.pc + 2 else s.pc)) := by
  cases h : keyOperand (s.reg x) with
  | none => exact .inl ⟨keyOperand_none.1 h, by simp only [execSknp, h]⟩
  | some k => exact .inr ⟨k, keyOperand_some h, by simp only [execSknp, h, State.skipIf_eq]⟩

theorem execLdVxK_cases (x : Reg) (s : State) :
    (s.wait = .idle ∧ (∀ k, s.keyHeld k = false) ∧ execLdVxK x s = .next s.rewindPc) ∨
    (∃ k, s.wait = .idle ∧ s.keyHeld k = true ∧ (∀ j, j < k → s.keyHeld j = false) ∧
      execLdVxK x s = .next (s.setWait (.keyLatched k)).rewindPc) ∨
    (∃ k, s.wait = .keyLatched k ∧ s.keyHeld k = true ∧ execLdVxK x s = .next s.rewindPc) ∨
    ∃ k, s.wait = .keyLatched k ∧ s.keyHeld k = false ∧
      execLdVxK x s = .next ((s.setReg x (BitVec.ofNat 8 k.val)).setWait .idle) := by
  cases hw : s.wait with
  | idle =>
    cases hk : lowestHeld s with
    | none => exact .inl ⟨rfl, lowestHeld_none.1 hk, by simp only [execLdVxK, hw, hk]⟩
    | some k =>
      have h := lowestHeld_some hk
      exact .inr (.inl ⟨k, rfl, h.1, h.2, by simp only [execLdVxK, hw, hk]⟩)
  | keyLatched k =>
    cases hk : s.keyHeld k with
    | true => exact .inr (.inr (.inl ⟨k, rfl, hk, by simp only [execLdVxK, hw, hk, if_true]⟩))
    | false => exact .inr (.inr (.inr ⟨k, rfl, hk, by simp only [execLdVxK, hw, hk, Bool.false_eq_true, if_false]⟩))

/-! ## Every meaning answers, and none uses the schedule -/

/-- Every meaning answers a next state. -/
theorem exec_next (i : Instr) (s : State) : ∃ t, exec i s = .next t := by
  cases i <;> simp only [exec]
  case ret => rcases execRet_cases s with ⟨_, h⟩ | ⟨_, h⟩ <;> exact ⟨_, h⟩
  case call nnn => rcases execCall_cases nnn s with ⟨_, h⟩ | ⟨_, h⟩ <;> exact ⟨_, h⟩
  case drw x y n => rcases execDrw_cases x y n s with ⟨_, _, h⟩ | ⟨_, h⟩ <;> exact ⟨_, h⟩
  case skp x => rcases execSkp_cases x s with ⟨_, h⟩ | ⟨_, _, h⟩ <;> exact ⟨_, h⟩
  case sknp x => rcases execSknp_cases x s with ⟨_, h⟩ | ⟨_, _, h⟩ <;> exact ⟨_, h⟩
  case ldVxK x =>
    rcases execLdVxK_cases x s with ⟨_, _, h⟩ | ⟨_, _, _, _, h⟩ | ⟨_, _, _, h⟩ | ⟨_, _, _, h⟩ <;> exact ⟨_, h⟩
  case ldB x => rcases execLdB_cases x s with ⟨_, h⟩ | ⟨_, h⟩ <;> exact ⟨_, h⟩
  case stRegs x => rcases execStRegs_cases x s with ⟨_, h⟩ | ⟨_, h⟩ <;> exact ⟨_, h⟩
  case ldRegs x => rcases execLdRegs_cases x s with ⟨_, h⟩ | ⟨_, h⟩ <;> exact ⟨_, h⟩
  all_goals exact ⟨_, rfl⟩

theorem setRegsFrom_schedule (l : List Event) (s : State) (k : Nat) (bs : List Byte) :
    State.setRegsFrom { s with schedule := l } k bs = { s.setRegsFrom k bs with schedule := l } := by
  induction bs generalizing s k with
  | nil => rfl
  | cons b bs ih =>
    simp only [State.setRegsFrom]
    split
    · exact ih (s.setReg ⟨k, ‹_›⟩ b) _
    · exact ih s _

/-- No meaning reads the schedule. -/
theorem exec_schedule {i : Instr} {s t : State} (l : List Event) (h : exec i s = .next t) :
    exec i { s with schedule := l } = .next { t with schedule := l } := by
  have hreg : ∀ x, State.reg { s with schedule := l } x = s.reg x := fun _ => rfl
  cases i <;> simp only [exec] at h ⊢
  case ret =>
    by_cases hs : 0 < s.sp.val <;> simp only [execRet, State.popPc, hs, dif_pos, dif_neg, not_false_eq_true] at h ⊢ <;>
      injection h with h <;> subst h <;> rfl
  case call nnn =>
    by_cases hs : s.sp.val < 16 <;> simp only [execCall, State.pushPc, hs, dif_pos, dif_neg, not_false_eq_true] at h ⊢ <;>
      injection h with h <;> subst h <;> rfl
  case drw x y n =>
    simp only [execDrw, rowsDrawn, startRow, hreg, dataBase] at h ⊢
    split at h <;> injection h with h <;> subst h <;> rfl
  case skp x =>
    simp only [execSkp, hreg, State.skipIf_eq] at h ⊢
    split at h <;> injection h with h <;> subst h <;> rfl
  case sknp x =>
    simp only [execSknp, hreg, State.skipIf_eq] at h ⊢
    split at h <;> injection h with h <;> subst h <;> rfl
  case ldVxK x =>
    clear hreg
    obtain ⟨_, _, _, _, _, _, _, _, _, _, _, ks, w, _, _, _, _, _⟩ := s
    have hl : ∀ cfg v i pc sp stack dt st mem disp dirty keys w status dc du dr (l l' : List Event),
        lowestHeld ⟨cfg, v, i, pc, sp, stack, dt, st, mem, disp, dirty, keys, w, status, dc, du, dr, l⟩ =
        lowestHeld ⟨cfg, v, i, pc, sp, stack, dt, st, mem, disp, dirty, keys, w, status, dc, du, dr, l'⟩ := by intros; rfl
    cases w with
    | idle =>
      simp only [execLdVxK] at h ⊢
      rw [hl (l' := l)] at h
      split at h <;> injection h with h <;> subst h <;> rfl
    | keyLatched k =>
      cases hk : ks.get k <;> simp only [execLdVxK, State.keyHeld, hk, if_true, Bool.false_eq_true, if_false] at h ⊢ <;>
        injection h with h <;> subst h <;> rfl
  case ldB x =>
    simp only [execLdB, hreg, dataBase] at h ⊢
    split at h <;> injection h with h <;> subst h <;> rfl
  case stRegs x =>
    simp only [execStRegs, regsUpTo, dataBase] at h ⊢
    split at h <;> injection h with h <;> subst h <;> rfl
  case ldRegs x =>
    simp only [execLdRegs, dataBase, setRegsFrom_schedule] at h ⊢
    split at h <;> injection h with h <;> subst h <;> rfl
  all_goals
    (try simp only [execJp, execSeImm, execSneImm, execSeReg, execSneReg, State.skipIf_eq] at h ⊢)
    injection h with h
    subst h
    rfl

/-- No meaning writes the schedule. -/
theorem exec_keeps_schedule {i : Instr} {s t : State} (h : exec i s = .next t) : t.schedule = s.schedule := by
  have h' := exec_schedule s.schedule h
  rw [show ({ s with schedule := s.schedule } : State) = s from rfl, h] at h'
  injection h' with h'
  rw [h']

/-! ## The cycle and the step -/

/-- What a cycle does: nothing but the pulses in a halted core, the fetch error, or the meaning of the word at `PC`
(30_encoding.md R71). -/
theorem cycle_cases (s : State) :
    (∃ err, s.status = .halted err ∧ cycle s = .next s.clearPulses) ∨
    (s.status = .running ∧ 4094 < s.pc.toNat ∧
      cycle s = .next (s.clearPulses.raiseFatal .fetchOutOfRange none s.pc)) ∨
    (s.status = .running ∧ s.pc.toNat ≤ 4094 ∧ cycle s = exec (decode s.cfg.decodeAliases
      (wordOfBytes (s.mem.read s.pc.toNat) (s.mem.read (s.pc.toNat + 1)))) s.afterFetch) := by
  cases hs : s.status with
  | halted err => exact .inl ⟨err, rfl, by simp only [cycle, hs]⟩
  | running =>
    refine .inr ?_
    by_cases h : s.pc.toNat ≤ 4094
    · exact .inr ⟨rfl, h, by simp only [cycle, hs, fetchWord, Memory.readWord_of_le _ h]⟩
    · have h' : 4094 < s.pc.toNat := by omega
      exact .inl ⟨rfl, h', by simp only [cycle, hs, fetchWord, Memory.readWord_of_gt _ h']⟩

/-- A cycle answers a next state, the same whatever is scheduled. -/
theorem cycle_schedule (s : State) (l : List Event) :
    ∃ t, cycle s = .next t ∧ cycle { s with schedule := l } = .next { t with schedule := l } := by
  rcases cycle_cases s with ⟨e, h1, h⟩ | ⟨h1, h2, h⟩ | ⟨h1, h2, h⟩
  · refine ⟨_, h, ?_⟩
    rcases cycle_cases { s with schedule := l } with ⟨e, g1, g⟩ | ⟨g1, g2, g⟩ | ⟨g1, g2, g⟩
    · rw [g]; rfl
    · rw [h1] at g1; cases g1
    · rw [h1] at g1; cases g1
  · refine ⟨_, h, ?_⟩
    rcases cycle_cases { s with schedule := l } with ⟨e, g1, g⟩ | ⟨g1, g2, g⟩ | ⟨g1, g2, g⟩
    · rw [h1] at g1; cases g1
    · rw [g]; rfl
    · exact absurd g2 (Nat.not_le.2 h2)
  · obtain ⟨t, ht⟩ := exec_next (decode s.cfg.decodeAliases (wordOfBytes (s.mem.read s.pc.toNat) (s.mem.read (s.pc.toNat + 1)))) s.afterFetch
    refine ⟨t, h.trans ht, ?_⟩
    rcases cycle_cases { s with schedule := l } with ⟨e, g1, g⟩ | ⟨g1, g2, g⟩ | ⟨g1, g2, g⟩
    · rw [h1] at g1; cases g1
    · exact absurd h2 (Nat.not_le.2 g2)
    · rw [g]; exact exec_schedule l ht

/-- What a step does: the event at the head of the schedule, or a cycle. -/
theorem step_cases (s : State) :
    ((s.schedule = [] ∨ s.schedule.head? = some .step) ∧ step s = cycle s.dropEvent) ∨
    (s.schedule.head? = some .tick ∧ step s = .next s.dropEvent.tick) ∨
    (∃ k h, s.schedule.head? = some (.setKey k h) ∧ step s = .next (s.dropEvent.setKey k h)) ∨
    (s.schedule.head? = some .ackDirty ∧ step s = .next s.dropEvent.ackDirty) := by
  unfold step State.nextEvent
  cases s.schedule with
  | nil => exact .inl ⟨.inl rfl, rfl⟩
  | cons e rest =>
    cases e with
    | step => exact .inl ⟨.inr rfl, rfl⟩
    | tick => exact .inr (.inl ⟨rfl, rfl⟩)
    | setKey k h => exact .inr (.inr (.inl ⟨k, h, rfl, rfl⟩))
    | ackDirty => exact .inr (.inr (.inr ⟨rfl, rfl⟩))

/-! ## The words of FX0A -/

theorem isKeyWait_iff (w : Word) : isKeyWait w = true ↔ (digit w 3).val = 15 ∧ (fieldNN w).toNat = 0x0A := by
  have hs : isKeyWait w = (Row.mk "" 0xF0FF 0xF00A).selects w := rfl
  rw [hs, Row.selects_iff, fieldNN_toNat]
  have h1 := (digit w 1).isLt
  have h0 := (digit w 0).isLt
  simp only [show (digit (0xF0FF : Word) 3).val = 15 by decide, show (digit (0xF00A : Word) 3).val = 15 by decide,
    show (digit (0xF0FF : Word) 2).val = 0 by decide, show (digit (0xF00A : Word) 2).val = 0 by decide,
    show (digit (0xF0FF : Word) 1).val = 15 by decide, show (digit (0xF00A : Word) 1).val = 0 by decide,
    show (digit (0xF0FF : Word) 0).val = 15 by decide, show (digit (0xF00A : Word) 0).val = 10 by decide,
    show ∀ d : Fin 16, d.val &&& 15 = d.val from digit_and_F, Nat.and_zero, true_and]
  omega

/-- The words of the form `FX0A` are those that decode to the key wait. -/
theorem isKeyWait_iff_decode (aliases : Bool) (w : Word) :
    isKeyWait w = true ↔ ∃ x, decode aliases w = .ldVxK x := by
  rw [isKeyWait_iff]
  refine ⟨fun h => ⟨fieldX w, by simp [decode, h.1, decodeF, h.2]⟩, fun ⟨x, h⟩ => ?_⟩
  have h3 := (digit w 3).isLt
  unfold decode at h
  split at h <;> (try cases h)
  · unfold decode0 at h; split at h <;> (try split at h) <;> cases h
  · split at h <;> cases h
  · unfold decode8 at h; split at h <;> cases h
  · split at h <;> cases h
  · unfold decodeE at h; split at h <;> cases h
  · unfold decodeF at h
    split at h <;> (try cases h)
    refine ⟨?_, ‹_›⟩
    grind

end Sys2Proof.Machine
end

