-- ==== Sys2Proof/Laws/PerInstr.lean ====
section
/-! SUPPORT. What holds of each instruction as syntax, one lemma per constructor. Family EncodeInRow: the word of a well-formed
instruction lies in the row of the opcode map that bears its name (30_encoding.md R75, R76), or in none (R78). -/

namespace Sys2Proof.Laws.EncodeInRow

/-- The word of the instruction selects the row of its name; UNMAPPED selects none. -/
def Statement (i : Instr) : Prop :=
  i.wf false = true →
    (∃ r ∈ opcodeRows, r.mnemonic = i.mnemonic ∧ r.selects (encode i) = true) ∨
      (i.mnemonic = "UNMAPPED" ∧ isUnmapped false (encode i) = true)

/-- A row of the map that bears the name and selects the word. -/
theorem of_row {i : Instr} (r : Row) (hr : r ∈ opcodeRows) (hn : r.mnemonic = i.mnemonic)
    (hs : r.selects (encode i) = true) : Statement i := fun _ => .inl ⟨r, hr, hn, hs⟩

/-- A row whose mask checks the first digit alone selects every word with that digit. -/
theorem selects_digit3 {m : String} {v w : Word} (d : Fin 16) (hv : v = BitVec.ofNat 16 (d.val * 4096))
    (h3 : digit w 3 = d) : (Row.mk m 0xF000 v).selects w = true := by
  rw [Row.selects_iff]
  simp only [show (digit (0xF000 : Word) 3).val = 15 by decide, show (digit (0xF000 : Word) 2).val = 0 by decide, show (digit (0xF000 : Word) 1).val = 0 by decide, show (digit (0xF000 : Word) 0).val = 0 by decide]
  simp only [show ∀ d : Fin 16, d.val &&& 15 = d.val from digit_and_F, Nat.and_zero, h3, hv, digit_val, BitVec.toNat_ofNat]
  omega

/-- A row whose mask checks the first and the last digit. -/
theorem selects_digit30 {m : String} {v w : Word} (d n : Fin 16) (hv : v = BitVec.ofNat 16 (d.val * 4096 + n.val))
    (h3 : digit w 3 = d) (h0 : fieldN w = n) : (Row.mk m 0xF00F v).selects w = true := by
  rw [fieldN] at h0
  rw [Row.selects_iff]
  simp only [show (digit (0xF00F : Word) 3).val = 15 by decide, show (digit (0xF00F : Word) 2).val = 0 by decide, show (digit (0xF00F : Word) 1).val = 0 by decide, show (digit (0xF00F : Word) 0).val = 15 by decide]
  simp only [show ∀ d : Fin 16, d.val &&& 15 = d.val from digit_and_F, Nat.and_zero, h3, h0, hv, digit_val, BitVec.toNat_ofNat]
  omega

/-- A row whose mask checks the first digit and the low byte. -/
theorem selects_digit3NN {m : String} {v w : Word} (d : Fin 16) (low : Fin 256)
    (hv : v = BitVec.ofNat 16 (d.val * 4096 + low.val)) (h3 : digit w 3 = d) (h0 : (fieldNN w).toNat = low.val) :
    (Row.mk m 0xF0FF v).selects w = true := by
  rw [fieldNN_toNat] at h0
  have h1 : (digit w 1).val = low.val / 16 := by omega
  have h2 : (digit w 0).val = low.val % 16 := by omega
  rw [Row.selects_iff]
  simp only [show (digit (0xF0FF : Word) 3).val = 15 by decide, show (digit (0xF0FF : Word) 2).val = 0 by decide, show (digit (0xF0FF : Word) 1).val = 15 by decide, show (digit (0xF0FF : Word) 0).val = 15 by decide]
  simp only [show ∀ d : Fin 16, d.val &&& 15 = d.val from digit_and_F, Nat.and_zero]
  simp only [h1, h2, h3, hv, digit_val, BitVec.toNat_ofNat]
  omega

theorem cls : Statement .cls :=
  of_row ⟨"CLS", 0xFFFF, 0x00E0⟩ (by decide) rfl (by decide)

theorem ret : Statement .ret :=
  of_row ⟨"RET", 0xFFFF, 0x00EE⟩ (by decide) rfl (by decide)

theorem jp (nnn : Addr) : Statement (.jp nnn) :=
  of_row ⟨"JP", 0xF000, 0x1000⟩ (by decide) rfl (selects_digit3 1 rfl (encodeNNN_digit3 1 nnn))

theorem call (nnn : Addr) : Statement (.call nnn) :=
  of_row ⟨"CALL", 0xF000, 0x2000⟩ (by decide) rfl (selects_digit3 2 rfl (encodeNNN_digit3 2 nnn))

theorem seImm (x : Reg) (nn : Byte) : Statement (.seImm x nn) :=
  of_row ⟨"SE_IMM", 0xF000, 0x3000⟩ (by decide) rfl (selects_digit3 3 rfl (encodeXNN_digit3 3 x nn))

theorem sneImm (x : Reg) (nn : Byte) : Statement (.sneImm x nn) :=
  of_row ⟨"SNE_IMM", 0xF000, 0x4000⟩ (by decide) rfl (selects_digit3 4 rfl (encodeXNN_digit3 4 x nn))

theorem seReg (x y : Reg) : Statement (.seReg x y) :=
  of_row ⟨"SE_REG", 0xF00F, 0x5000⟩ (by decide) rfl (selects_digit30 5 0 rfl (encodeXYN_digit3 5 x y 0) (encodeXYN_fieldN 5 x y 0))

theorem ldImm (x : Reg) (nn : Byte) : Statement (.ldImm x nn) :=
  of_row ⟨"LD_IMM", 0xF000, 0x6000⟩ (by decide) rfl (selects_digit3 6 rfl (encodeXNN_digit3 6 x nn))

theorem addImm (x : Reg) (nn : Byte) : Statement (.addImm x nn) :=
  of_row ⟨"ADD_IMM", 0xF000, 0x7000⟩ (by decide) rfl (selects_digit3 7 rfl (encodeXNN_digit3 7 x nn))

theorem ldReg (x y : Reg) : Statement (.ldReg x y) :=
  of_row ⟨"LD_REG", 0xF00F, 0x8000⟩ (by decide) rfl (selects_digit30 8 0 rfl (encodeXYN_digit3 8 x y 0) (encodeXYN_fieldN 8 x y 0))

theorem orReg (x y : Reg) : Statement (.orReg x y) :=
  of_row ⟨"OR", 0xF00F, 0x8001⟩ (by decide) rfl (selects_digit30 8 1 rfl (encodeXYN_digit3 8 x y 1) (encodeXYN_fieldN 8 x y 1))

theorem andReg (x y : Reg) : Statement (.andReg x y) :=
  of_row ⟨"AND", 0xF00F, 0x8002⟩ (by decide) rfl (selects_digit30 8 2 rfl (encodeXYN_digit3 8 x y 2) (encodeXYN_fieldN 8 x y 2))

theorem xorReg (x y : Reg) : Statement (.xorReg x y) :=
  of_row ⟨"XOR", 0xF00F, 0x8003⟩ (by decide) rfl (selects_digit30 8 3 rfl (encodeXYN_digit3 8 x y 3) (encodeXYN_fieldN 8 x y 3))

theorem addReg (x y : Reg) : Statement (.addReg x y) :=
  of_row ⟨"ADD_REG", 0xF00F, 0x8004⟩ (by decide) rfl (selects_digit30 8 4 rfl (encodeXYN_digit3 8 x y 4) (encodeXYN_fieldN 8 x y 4))

theorem sub (x y : Reg) : Statement (.sub x y) :=
  of_row ⟨"SUB", 0xF00F, 0x8005⟩ (by decide) rfl (selects_digit30 8 5 rfl (encodeXYN_digit3 8 x y 5) (encodeXYN_fieldN 8 x y 5))

theorem shr (x y : Reg) : Statement (.shr x y) :=
  of_row ⟨"SHR", 0xF00F, 0x8006⟩ (by decide) rfl (selects_digit30 8 6 rfl (encodeXYN_digit3 8 x y 6) (encodeXYN_fieldN 8 x y 6))

theorem subn (x y : Reg) : Statement (.subn x y) :=
  of_row ⟨"SUBN", 0xF00F, 0x8007⟩ (by decide) rfl (selects_digit30 8 7 rfl (encodeXYN_digit3 8 x y 7) (encodeXYN_fieldN 8 x y 7))

theorem shl (x y : Reg) : Statement (.shl x y) :=
  of_row ⟨"SHL", 0xF00F, 0x800E⟩ (by decide) rfl (selects_digit30 8 14 rfl (encodeXYN_digit3 8 x y 14) (encodeXYN_fieldN 8 x y 14))

theorem sneReg (x y : Reg) : Statement (.sneReg x y) :=
  of_row ⟨"SNE_REG", 0xF00F, 0x9000⟩ (by decide) rfl (selects_digit30 9 0 rfl (encodeXYN_digit3 9 x y 0) (encodeXYN_fieldN 9 x y 0))

theorem ldI (nnn : Addr) : Statement (.ldI nnn) :=
  of_row ⟨"LD_I", 0xF000, 0xA000⟩ (by decide) rfl (selects_digit3 10 rfl (encodeNNN_digit3 10 nnn))

theorem jpV0 (nnn : Addr) : Statement (.jpV0 nnn) :=
  of_row ⟨"JP_V0", 0xF000, 0xB000⟩ (by decide) rfl (selects_digit3 11 rfl (encodeNNN_digit3 11 nnn))

theorem rnd (x : Reg) (nn : Byte) : Statement (.rnd x nn) :=
  of_row ⟨"RND", 0xF000, 0xC000⟩ (by decide) rfl (selects_digit3 12 rfl (encodeXNN_digit3 12 x nn))

theorem drw (x y : Reg) (n : Fin 16) : Statement (.drw x y n) :=
  of_row ⟨"DRW", 0xF000, 0xD000⟩ (by decide) rfl (selects_digit3 13 rfl (encodeXYN_digit3 13 x y n))

theorem skp (x : Reg) : Statement (.skp x) :=
  of_row ⟨"SKP", 0xF0FF, 0xE09E⟩ (by decide) rfl (selects_digit3NN 14 158 rfl (encodeX_digit3 14 x 158) (encodeX_fieldNN 14 x 158))

theorem sknp (x : Reg) : Statement (.sknp x) :=
  of_row ⟨"SKNP", 0xF0FF, 0xE0A1⟩ (by decide) rfl (selects_digit3NN 14 161 rfl (encodeX_digit3 14 x 161) (encodeX_fieldNN 14 x 161))

theorem ldVxDt (x : Reg) : Statement (.ldVxDt x) :=
  of_row ⟨"LD_VX_DT", 0xF0FF, 0xF007⟩ (by decide) rfl (selects_digit3NN 15 7 rfl (encodeX_digit3 15 x 7) (encodeX_fieldNN 15 x 7))

theorem ldVxK (x : Reg) : Statement (.ldVxK x) :=
  of_row ⟨"LD_VX_K", 0xF0FF, 0xF00A⟩ (by decide) rfl (selects_digit3NN 15 10 rfl (encodeX_digit3 15 x 10) (encodeX_fieldNN 15 x 10))

theorem ldDtVx (x : Reg) : Statement (.ldDtVx x) :=
  of_row ⟨"LD_DT_VX", 0xF0FF, 0xF015⟩ (by decide) rfl (selects_digit3NN 15 21 rfl (encodeX_digit3 15 x 21) (encodeX_fieldNN 15 x 21))

theorem ldStVx (x : Reg) : Statement (.ldStVx x) :=
  of_row ⟨"LD_ST_VX", 0xF0FF, 0xF018⟩ (by decide) rfl (selects_digit3NN 15 24 rfl (encodeX_digit3 15 x 24) (encodeX_fieldNN 15 x 24))

theorem addI (x : Reg) : Statement (.addI x) :=
  of_row ⟨"ADD_I", 0xF0FF, 0xF01E⟩ (by decide) rfl (selects_digit3NN 15 30 rfl (encodeX_digit3 15 x 30) (encodeX_fieldNN 15 x 30))

theorem ldF (x : Reg) : Statement (.ldF x) :=
  of_row ⟨"LD_F", 0xF0FF, 0xF029⟩ (by decide) rfl (selects_digit3NN 15 41 rfl (encodeX_digit3 15 x 41) (encodeX_fieldNN 15 x 41))

theorem ldB (x : Reg) : Statement (.ldB x) :=
  of_row ⟨"LD_B", 0xF0FF, 0xF033⟩ (by decide) rfl (selects_digit3NN 15 51 rfl (encodeX_digit3 15 x 51) (encodeX_fieldNN 15 x 51))

theorem stRegs (x : Reg) : Statement (.stRegs x) :=
  of_row ⟨"ST_REGS", 0xF0FF, 0xF055⟩ (by decide) rfl (selects_digit3NN 15 85 rfl (encodeX_digit3 15 x 85) (encodeX_fieldNN 15 x 85))

theorem ldRegs (x : Reg) : Statement (.ldRegs x) :=
  of_row ⟨"LD_REGS", 0xF0FF, 0xF065⟩ (by decide) rfl (selects_digit3NN 15 101 rfl (encodeX_digit3 15 x 101) (encodeX_fieldNN 15 x 101))

theorem unmapped (word : Word) : Statement (.unmapped word) := fun h => .inr ⟨rfl, h⟩

end Sys2Proof.Laws.EncodeInRow
end

