-- ==== Sys2Proof/Tests/Slice0.lean ====
section
/-! SUPPORT. The model's tests. The expected values of the step tests are the vectors of 95_test_vectors.md; the words of the decode
tests are written out from the patterns of 30_encoding.md R76. After them, a witness for each statement that has hypotheses. -/

namespace Sys2Proof.Tests

open Sys2Proof Sys2Proof.Machine

/-! ## Helpers -/

/-- The next state, if there is one. -/
def next? : Result → Option State
  | .next t => some t
  | .fault _ => none
  | .refused _ => none

/-- One step of a state with the word placed where it is fetched. -/
def stepOf (w : Word) (s : State) : Option State := next? (step (placeWord s w))

/-- A property of the state after that step. -/
def after (w : Word) (s : State) (p : State → Bool) : Bool := (stepOf w s).any p

/-- The state halted with this record, `PC` advanced, nothing else changed (the convention of 95_test_vectors.md). -/
def haltsAs (w : Word) (s : State) (kind : ErrorKind) (addr : Word) : Bool :=
  stepOf w s == some { placeWord s w with status := .halted ⟨kind, some w, addr⟩, pc := s.pc + 2 }

/-- V1, V2 and VF. -/
def base (v1 v2 vf : Byte) : State := ((State.reset.setReg 1 v1).setReg 2 v2).setReg VF vf

/-- The start state of the two-register vectors, where VF is 0xAA. -/
def pair (v1 v2 : Byte) : State := base v1 v2 0xAA

/-- V1 and VF after a word, as the two-register vectors give them. -/
def gives (w : Word) (s : State) (v1 vf : Byte) : Bool := after w s fun t => t.reg 1 == v1 && t.reg VF == vf && t.reg 2 == s.reg 2

/-- The state at an address. -/
def at' (a : Word) (s : State) : State := s.setPc a

/-- A blank display of another size, with a sprite byte at 0x300 and `I` there. -/
def screen (w h : Nat) (sprite x y : Byte) : State :=
  { ((State.reset.setReg 0 x).setReg 1 y).setI 0x300 with
    cfg := { Config.default with width := w, height := h }
    disp := List.replicate h (List.replicate w false)
    mem := Memory.store [] 0x300 [sprite, 0x80] }

/-! ## Well-formedness: the ill-formed terms the check refuses -/

theorem test_wf_refuses_mapped_words : opcodeRows.all (fun r => !(Instr.unmapped r.value).wf false) = true := by decide
theorem test_wf_refuses_jump_as_unmapped : (Instr.unmapped 0x1ABC).wf false = false := by decide
theorem test_wf_refuses_aliased_words :
    (Instr.unmapped 0x5121).wf true = false ∧ (Instr.unmapped 0x9121).wf true = false ∧
      (Instr.unmapped 0x01E0).wf true = false ∧ (Instr.unmapped 0x01EE).wf true = false := by decide
theorem test_wf_accepts_unmapped_words :
    (Instr.unmapped 0x0000).wf true = true ∧ (Instr.unmapped 0x5121).wf false = true ∧ (Instr.unmapped 0xF1FF).wf false = true := by
  decide

/-! ## Decoding: every constructor by a word written out from its pattern -/

theorem test_decode_family_0 :
    decode false 0x00E0 = .cls ∧ decode false 0x00EE = .ret ∧ decode false 0x01E0 = .unmapped 0x01E0 ∧
      decode true 0x01E0 = .cls ∧ decode true 0x0FEE = .ret ∧ decode true 0x00E1 = .unmapped 0x00E1 := by decide
theorem test_decode_jumps :
    decode false 0x1ABC = .jp 0xABC ∧ decode false 0x2DEF = .call 0xDEF ∧ decode false 0xB2FF = .jpV0 0x2FF ∧
      decode false 0xA2F0 = .ldI 0x2F0 := by decide
theorem test_decode_immediates :
    decode false 0x332A = .seImm 3 0x2A ∧ decode false 0x4F80 = .sneImm 15 0x80 ∧ decode false 0x6A7F = .ldImm 10 0x7F ∧
      decode false 0x71FF = .addImm 1 0xFF ∧ decode false 0xC30F = .rnd 3 0x0F := by decide
theorem test_decode_register_skips :
    decode false 0x5120 = .seReg 1 2 ∧ decode false 0x9340 = .sneReg 3 4 ∧ decode false 0x5121 = .unmapped 0x5121 ∧
      decode true 0x512F = .seReg 1 2 ∧ decode true 0x9341 = .sneReg 3 4 := by decide
theorem test_decode_family_8 :
    decode false 0x8120 = .ldReg 1 2 ∧ decode false 0x8121 = .orReg 1 2 ∧ decode false 0x8122 = .andReg 1 2 ∧
      decode false 0x8123 = .xorReg 1 2 ∧ decode false 0x8124 = .addReg 1 2 ∧ decode false 0x8125 = .sub 1 2 := by decide
theorem test_decode_family_8_rest :
    decode false 0x8126 = .shr 1 2 ∧ decode false 0x8127 = .subn 1 2 ∧ decode false 0x812E = .shl 1 2 ∧
      decode false 0x8128 = .unmapped 0x8128 ∧ decode true 0x812F = .unmapped 0x812F := by decide
theorem test_decode_draw_and_keys :
    decode false 0xD12F = .drw 1 2 15 ∧ decode false 0xE29E = .skp 2 ∧ decode false 0xE2A1 = .sknp 2 ∧
      decode false 0xE19F = .unmapped 0xE19F := by decide
theorem test_decode_family_F :
    decode false 0xF107 = .ldVxDt 1 ∧ decode false 0xF20A = .ldVxK 2 ∧ decode false 0xF315 = .ldDtVx 3 ∧
      decode false 0xF418 = .ldStVx 4 ∧ decode false 0xF51E = .addI 5 := by decide
theorem test_decode_family_F_rest :
    decode false 0xF629 = .ldF 6 ∧ decode false 0xF733 = .ldB 7 ∧ decode false 0xF855 = .stRegs 8 ∧
      decode false 0xFF65 = .ldRegs 15 ∧ decode false 0xF1FF = .unmapped 0xF1FF := by decide
theorem test_decode_bytes_big_endian : decodeBytes false [0x6A, 0x7F, 0x12] = .ok (.ldImm 10 0x7F, [0x12]) := rfl
theorem test_decode_bytes_too_short : decodeBytes false [0x6A] = .error .tooShort := rfl
theorem test_decode_table_word : decodeTableWord 16 0xD12F = some (.drw 1 2 15) ∧ decodeTableWord 16 0 = some (.unmapped 0) := by
  decide
theorem test_encode_words :
    encode (.drw 1 2 15) = 0xD12F ∧ encode (.stRegs 8) = 0xF855 ∧ encode (.call 0xDEF) = 0x2DEF ∧ encodeBytes .ret = [0x00, 0xEE] := by
  decide

/-! ## Fetch (vectors 2.1) -/

theorem test_fetch_big_endian : after 0x6A7F State.reset (fun t => t.reg 10 == 0x7F && t.pc == 0x202) = true := by decide
theorem test_fetch_odd_address : after 0x6A7F (at' 0x201 State.reset) (fun t => t.reg 10 == 0x7F && t.pc == 0x203) = true := by
  decide
theorem test_fetch_last_legal : after 0x6A7F (at' 0xFFE State.reset) (fun t => t.reg 10 == 0x7F && t.pc == 0x1000) = true := by
  decide
theorem test_fetch_4095_fatal :
    next? (step (at' 0xFFF State.reset)) =
      some { at' 0xFFF State.reset with status := .halted ⟨.fetchOutOfRange, none, 0xFFF⟩ } := by decide
theorem test_step_from_reset_is_a_no_op :
    next? (step State.reset) = some { State.reset with pc := 0x202, diagUnmapped := some ⟨0, 0x200⟩ } := by decide
theorem test_step_after_withFetchWord :
    (next? (step (State.reset.withFetchWord 16 0x1ABC))).any (fun t => t.pc == 0xABC) = true := by decide
theorem test_unmapped_diagnostic :
    after 0x0000 (at' 0x300 State.reset) (fun t => t.pc == 0x302 && t.diagUnmapped == some ⟨0x0000, 0x300⟩) = true := by decide
theorem test_unmapped_key_word_is_no_error :
    after 0xE19F (base 0x10 0 0) (fun t => t.status == .running && t.diagUnmapped == some ⟨0xE19F, 0x200⟩) = true := by decide

/-! ## Control transfer (vectors 2.2) -/

/-- `SP = 2`, `stack = [0x206, 0x250]`, at 0x300. -/
def nested : State := { at' 0x300 State.reset with sp := 2, stack := (State.reset.stack.set 0 0x206).set 1 0x250 }

/-- The stack full, at 0x204. -/
def fullStack : State := { at' 0x204 State.reset with sp := 16 }

theorem test_ret_pops : after 0x00EE nested (fun t => t.pc == 0x250 && t.sp == 1 && t.stack == nested.stack) = true := by decide
theorem test_ret_underflow : haltsAs 0x00EE (at' 0x300 State.reset) .stackUnderflow 0x300 = true := by decide
theorem test_jp : after 0x1ABC State.reset (fun t => t.pc == 0xABC) = true := by decide
theorem test_call_pushes :
    after 0x2300 (at' 0x204 State.reset) (fun t => t.pc == 0x300 && t.sp == 1 && t.stack[0] == 0x206) = true := by decide
theorem test_call_overflow : haltsAs 0x2300 fullStack .stackOverflow 0x204 = true := by decide
theorem test_se_imm_skips : after 0x332A (at' 0x210 (State.reset.setReg 3 0x2A)) (fun t => t.pc == 0x214) = true := by decide
theorem test_se_imm_stays : after 0x332B (at' 0x210 (State.reset.setReg 3 0x2A)) (fun t => t.pc == 0x212) = true := by decide
theorem test_sne_imm_stays : after 0x432A (at' 0x210 (State.reset.setReg 3 0x2A)) (fun t => t.pc == 0x212) = true := by decide
theorem test_sne_imm_skips : after 0x432B (at' 0x210 (State.reset.setReg 3 0x2A)) (fun t => t.pc == 0x214) = true := by decide
theorem test_se_reg_skips : after 0x5120 (at' 0x220 (base 7 7 0)) (fun t => t.pc == 0x224) = true := by decide
theorem test_se_reg_stays : after 0x5120 (at' 0x220 (base 7 8 0)) (fun t => t.pc == 0x222) = true := by decide
theorem test_sne_reg_skips : after 0x9120 (at' 0x220 (base 7 8 0)) (fun t => t.pc == 0x224) = true := by decide
theorem test_sne_reg_stays : after 0x9120 (at' 0x220 (base 7 7 0)) (fun t => t.pc == 0x222) = true := by decide
theorem test_jp_v0_not_masked : after 0xBFFF (State.reset.setReg 0 0xFF) (fun t => t.pc == 0x10FE) = true := by decide
theorem test_jp_v0_uses_v0 : after 0xB2FF ((State.reset.setReg 0 2).setReg 2 0x77) (fun t => t.pc == 0x301) = true := by decide
theorem test_alias_skips :
    after 0x5121 { base 7 7 0 with cfg := { Config.default with decodeAliases := true } }
      (fun t => t.pc == 0x204 && t.diagUnmapped == none) = true := by decide

/-! ## Register load, arithmetic, logic, shift, random (vectors 2.3) -/

theorem test_ld_imm : after 0x6F12 (base 0 0 1) (fun t => t.reg VF == 0x12) = true := by decide
theorem test_add_imm_wraps : gives 0x7101 (base 0xFF 0 0x07) 0x00 0x07 = true := by decide
theorem test_add_imm_vf : after 0x7F02 (base 0 0 0xFF) (fun t => t.reg VF == 0x01) = true := by decide
theorem test_ld_reg : gives 0x8120 (pair 0x10 0x0F) 0x0F 0xAA = true := by decide
theorem test_or : gives 0x8121 (pair 0x10 0x0F) 0x1F 0xAA = true := by decide
theorem test_and : gives 0x8122 (pair 0xFF 0x01) 0x01 0xAA = true := by decide
theorem test_xor : gives 0x8123 (pair 0xFF 0x01) 0xFE 0xAA = true := by decide
theorem test_add_reg_carry : gives 0x8124 (pair 0xFF 0x01) 0x00 0x01 = true := by decide
theorem test_add_reg_vf_destination : after 0x8F24 (base 0 0x64 0xC8) (fun t => t.reg VF == 0x2C) = true := by decide
theorem test_sub_borrow : gives 0x8125 (pair 0x01 0x02) 0xFF 0x00 = true := by decide
theorem test_sub_equal_is_zero_flag : gives 0x8125 (pair 0x05 0x05) 0x00 0x00 = true := by decide
theorem test_shr_ignores_y : gives 0x8126 (pair 0x05 0x05) 0x02 0x01 = true := by decide
theorem test_shr_vf_destination : after 0x8F26 (base 0 0 0xC8) (fun t => t.reg VF == 0x64) = true := by decide
theorem test_subn_no_borrow : gives 0x8127 (pair 0x01 0x02) 0x01 0x01 = true := by decide
theorem test_subn_borrow : gives 0x8127 (pair 0x10 0x0F) 0xFF 0x00 = true := by decide
theorem test_shl_carry : gives 0x812E (pair 0x80 0x80) 0x00 0x01 = true := by decide
theorem test_shl_no_carry : gives 0x812E (pair 0x7F 0x80) 0xFE 0x00 = true := by decide
theorem test_rnd_zero_mask (s : State) (x : Reg) : ∃ t, exec (.rnd x 0) s = .next t ∧ t.reg x = 0 :=
  ⟨_, rfl, by rw [State.reg_countDraw, State.reg_setReg_self]; exact BitVec.and_zero⟩
theorem test_rnd_consumes_one_draw : after 0xC30F State.reset (fun t => t.draws == 1 && t.pc == 0x202) = true := by decide

/-! ## Index register and memory transfer (vectors 2.4) -/

/-- `I`, and `V3`. -/
def indexed (i : Word) (v3 : Byte) : State := (State.reset.setI i).setReg 3 v3

/-- `V0` to `V4` are 11, 22, 33, 44, 55 hexadecimal, `I` is 0x300. -/
def five : State := (State.reset.setI 0x300).setRegsFrom 0 [0x11, 0x22, 0x33, 0x44, 0x55]

theorem test_ld_i : after 0xA2F0 (State.reset.setI 0xFFFF) (fun t => t.i == 0x2F0) = true := by decide
theorem test_add_i_wraps : after 0xF21E ((base 0 0xFF 0x09).setI 0xFF80) (fun t => t.i == 0x7F && t.reg VF == 0x09) = true := by decide
theorem test_ld_f : after 0xF429 (State.reset.setReg 4 0x0F) (fun t => t.i == 0x4B) = true := by decide
theorem test_ld_f_whole_byte : after 0xF429 (State.reset.setReg 4 0xFF) (fun t => t.i == 0x4FB) = true := by decide
theorem test_ld_b :
    after 0xF333 (indexed 0x300 234)
      (fun t => t.mem.read 0x300 == 2 && t.mem.read 0x301 == 3 && t.mem.read 0x302 == 4 && t.i == 0x300) = true := by decide
theorem test_ld_b_out_of_range : haltsAs 0xF333 (indexed 0xFFE 255) .memOutOfRange 0x200 = true := by decide
theorem test_st_regs :
    after 0xF355 five (fun t => (List.range 7).map (fun k => t.mem.read (0x2FF + k)) == [0, 0x11, 0x22, 0x33, 0x44, 0, 0] &&
      t.i == 0x300) = true := by decide
theorem test_st_regs_out_of_range : haltsAs 0xF155 (five.setI 0xFFF) .memOutOfRange 0x200 = true := by decide
theorem test_ld_regs_font :
    after 0xF465 (State.reset.setReg 5 0)
      (fun t => (t.v.toList.take 6) == [0xF0, 0x90, 0x90, 0x90, 0xF0, 0]) = true := by decide
theorem test_ld_regs_no_wrap : haltsAs 0xF165 (five.setI 0xFFFF) .memOutOfRange 0x200 = true := by decide

/-! ## Display (vectors 2.5) -/

theorem test_cls :
    after 0x00E0 { screen 4 2 0 0 0 with disp := [[true, false, false, false], [false, false, false, true]] }
      (fun t => t.disp == [[false, false, false, false], [false, false, false, false]] && t.dirty && t.displayChanged) = true := by
  decide
theorem test_drw_clips_both_edges :
    after 0xD012 (screen 4 2 0xFF 2 3)
      (fun t => t.disp == [[false, false, false, false], [false, false, true, true]] && t.reg VF == 0 && t.dirty) = true := by
  decide
theorem test_drw_collides :
    after 0xD011 { screen 4 2 0xC0 0 0 with disp := [[false, true, true, false], [true, true, true, true]] }
      (fun t => t.disp == [[true, false, true, false], [true, true, true, true]] && t.reg VF == 1) = true := by
  decide
theorem test_drw_one_cell_display :
    after 0xD012 (screen 1 1 0x7F 9 9) (fun t => t.disp == [[false]] && t.reg VF == 0 && t.displayChanged) = true := by decide
theorem test_drw_no_rows :
    after 0xD010 ((State.reset.setI 0xFFFF).setReg VF 7) (fun t => t.reg VF == 0 && t.dirty && t.status == .running) = true := by
  decide
theorem test_drw_out_of_range : haltsAs 0xD01F (State.reset.setI 0xFF2) .memOutOfRange 0x200 = true := by decide
theorem test_drw_clipped_row_not_checked :
    after 0xD012 ((screen 8 2 0 0 1).setI 0xFFF) (fun t => t.status == .running && t.dirty) = true := by decide

/-! ## Keypad and timers (vectors 2.6) -/

/-- At 0x230 with `V2` and one key held. -/
def keyed (v2 : Byte) (k : Key) : State := (at' 0x230 (State.reset.setReg 2 v2)).setKey k true

theorem test_skp_held : after 0xE29E (keyed 5 5) (fun t => t.pc == 0x234) = true := by decide
theorem test_skp_bad_index : haltsAs 0xE29E (keyed 16 0) .badKeyIndex 0x230 = true := by decide
theorem test_sknp_not_held : after 0xE2A1 (keyed 5 4) (fun t => t.pc == 0x234) = true := by decide
theorem test_sknp_held : after 0xE2A1 (keyed 15 15) (fun t => t.pc == 0x232) = true := by decide
theorem test_ld_vx_dt : after 0xF307 (State.reset.setDt 0x1E) (fun t => t.reg 3 == 0x1E && t.dt == 0x1E) = true := by decide
theorem test_ld_dt_vx : after 0xF115 (base 0x3C 0 0) (fun t => t.dt == 0x3C && t.st == 0) = true := by decide
theorem test_ld_st_vx : after 0xF118 (base 5 0 0) (fun t => t.st == 5 && t.dt == 0 && t.tone) = true := by decide
theorem test_key_wait_latches_lowest :
    after 0xF30A ((State.reset.setKey 9 true).setKey 7 true) (fun t => t.wait == .keyLatched 7 && t.pc == 0x200) = true := by decide
theorem test_key_wait_delivers :
    after 0xF30A ((State.reset.setKey 2 true).setWait (.keyLatched 7))
      (fun t => t.reg 3 == 7 && t.wait == .idle && t.pc == 0x202) = true := by decide
theorem test_tick :
    (((State.reset.setDt 2).setSt 1).tick.dt, ((State.reset.setDt 2).setSt 1).tick.st, State.reset.tick.dt) = (1, 0, 0) := by decide

/-! ## Frame and reset -/

/-- A frame of one step: `F00A` at 0x200 with key 7 delivered latches it. -/
theorem test_frame_delivers_keys :
    (next? (frame (State.reset.keys.set 7 true) (placeWord { State.reset with cfg := { Config.default with ips := 0 }, dt := 5 }
      0xF00A))).any (fun t => t.wait == .keyLatched 7 && t.dt == 4) = true := by decide
theorem test_hand_off_acknowledges :
    (handOff { screen 4 2 0 0 0 with dirty := true, st := 1 }).2.dirty = false ∧
      (handOff { screen 4 2 0 0 0 with dirty := true, st := 1 }).1.tone = true := by decide
theorem test_boot_refuses_no_columns :
    (match boot { Config.default with width := 0 } fontParameter [] with | .error e => some e | .ok _ => none) = some .badGeometry := by
  decide
theorem test_instructions_per_frame :
    instructionsPerFrame Config.default = 11 ∧ instructionsPerFrame { Config.default with ips := 119 } = 1 := by decide

/-! ## Witnesses: each statement's hypotheses are met -/

theorem witness_DecodeOfEncodeIsIdentity :
    (Instr.unmapped 0x5121).wf false = true ∧ (Instr.unmapped 0xFFFF).wf true = true ∧ (Instr.drw 15 15 15).wf true = true := by
  decide
theorem witness_DecoderFollowsMaskAndMatch :
    ((0x8AB4 : Word) &&& 0xF00F = 0x8004 ∧ ⟨"ADD_REG", 0xF00F, 0x8004⟩ ∈ opcodeRows) ∧
      ∀ r ∈ opcodeRows, (0x8AB8 : Word) &&& r.mask ≠ r.value := by decide
theorem witness_UnmappedWordIsANoOp : ∀ r ∈ opcodeRows, (0x0000 : Word) &&& r.mask ≠ r.value := by decide
theorem witness_MemoryPrimitives : 0xFFF ≤ 0xFFF ∧ 0xFFF < 0x1000 ∧ 0xFFE + 1 ≤ 0xFFF ∧ 0xFFF < 0xFFF + 1 := by decide
theorem witness_CanonicalMemoriesReadingAlikeAreEqual :
    Memory.wf [(0x300, 1)] = true ∧ Memory.wf (Memory.store [] 0x300 [1, 0]) = true ∧
      ∀ a, Memory.read [(0x300, 1)] a = Memory.read (Memory.store [] 0x300 [1, 0]) a := by
  refine ⟨by decide, by decide, fun a => ?_⟩
  rw [show Memory.store [] 0x300 [1, 0] = [(0x300, 1)] by decide]
theorem witness_StepRunsTheDecodedInstruction :
    (State.reset.status = .running ∧ State.reset.pc.toNat ≤ 4094 ∧ State.reset.schedule = []) ∧
      ((at' 4094 State.reset).pc.toNat ≤ 4094 ∧
        ({ at' 4094 State.reset with schedule := [.step, .tick] } : State).schedule.head? = some .step) := by decide
theorem witness_FetchPastLastWordIsFatal :
    (at' 4095 State.reset).status = .running ∧ 4094 < (at' 4095 State.reset).pc.toNat ∧ (at' 4095 State.reset).schedule = [] := by
  decide

/-- A halted core with a tick scheduled. -/
def halted : State :=
  { State.reset with status := .halted ⟨.stackUnderflow, some 0x00EE, 0x300⟩, pc := 0x302, dt := 5, schedule := [.tick] }

theorem witness_HaltedCoreStaysHalted :
    halted.status = .halted ⟨.stackUnderflow, some 0x00EE, 0x300⟩ ∧ halted.schedule.head? = some .tick ∧
      (next? (step halted)).any (fun t => t.dt == 4) = true := by decide
theorem witness_ScheduledHostEventsHappen :
    ({ State.reset with schedule := [.setKey 7 true] } : State).schedule = .setKey 7 true :: [] ∧
      ({ State.reset with schedule := [.ackDirty, .tick] } : State).schedule = .ackDirty :: [.tick] := ⟨rfl, rfl⟩
theorem witness_ReturnPopsOrUnderflows :
    nested.sp.val = 1 + 1 ∧ fullStack.sp.val = 15 + 1 ∧ State.reset.sp = 0 := by decide

/-- The states of calls made one after another from the reset state. -/
def callChain : Nat → State
  | 0 => State.reset
  | k + 1 => (next? (exec (.call 0x200) (callChain k))).getD State.reset

theorem witness_CallPushesOrOverflows :
    State.reset.sp.val < 16 ∧ ({ State.reset with sp := 15 } : State).sp.val < 16 ∧ fullStack.sp = 16 ∧
      (callChain 0).sp = 0 ∧ (callChain 0).status = .running ∧
      ∀ k, exec (.call 0x200) (callChain k) = .next (callChain (k + 1)) := by
  refine ⟨by decide, by decide, by decide, rfl, rfl, fun k => ?_⟩
  obtain ⟨t, ht⟩ := exec_next (.call 0x200) (callChain k)
  rw [ht, callChain, ht]; rfl
theorem witness_ReturnAfterCallResumes :
    State.reset.sp.val < 16 ∧ exec (.call 0x300) State.reset = .next (callChain 1 |>.setPc 0x300) :=
  ⟨by decide, rfl⟩
theorem witness_flag_destinations : (1 : Reg) ≠ VF ∧ (0 : Reg) ≠ 1 ∧ (0 : Reg) ≠ VF := by decide
theorem witness_OnlyFlagWritersChangeVF : ∃ t, exec (.addReg 1 2) (pair 1 2) = .next t ∧ t.reg VF ≠ (pair 1 2).reg VF :=
  ⟨_, rfl, by decide⟩
theorem witness_DecimalDigitsAreStored :
    (indexed 0xFFD 255).i.toNat + 2 ≤ 0xFFF ∧ 0xFFF < (indexed 0xFFE 255).i.toNat + 2 := by decide
theorem witness_RegistersAreStoredAndLoaded :
    (indexed 0xFFF 0).i.toNat + (0 : Reg).val ≤ 0xFFF ∧ 0xFFF < (indexed 0xFFF 0).i.toNat + (1 : Reg).val ∧
      (indexed 0xFF0 0).i.toNat + (15 : Reg).val ≤ 0xFFF ∧ 0xFFF < (indexed 0xFF1 0).i.toNat + (15 : Reg).val := by decide
theorem witness_StoredRegistersLoadAgain :
    five.i.toNat + (3 : Reg).val ≤ 0xFFF ∧ ∃ t, exec (.stRegs 3) five = .next t ∧
      ({ State.reset with mem := t.mem, i := t.i } : State).mem = t.mem ∧
      ({ State.reset with mem := t.mem, i := t.i } : State).i = five.i :=
  ⟨by decide, _, rfl, rfl, rfl⟩
/-- The hypotheses of the draw statement, all together, of a state, its registers 0 and 1 and a height. -/
def drawable (s : State) (n : Fin 16) (x0 y0 rows : Nat) : Bool :=
  s.gridWf && x0 == (s.reg 0).toNat % s.cfg.width && y0 == (s.reg 1).toNat % s.cfg.height &&
    rows == min n.val (s.cfg.height - y0) && (rows == 0 || s.i.toNat + rows - 1 ≤ 0xFFF)

theorem witness_DrawXorsAndClips :
    drawable (screen 4 2 0xFF 2 3) 2 2 1 1 = true ∧ drawable (State.reset.setI 0xFFFF) 0 0 0 0 = true ∧
      drawable (State.reset.setI 0xFF1) 15 0 0 15 = true := by decide
theorem witness_DrawPastMemoryIsFatal :
    15 = min (15 : Fin 16).val (State.reset.cfg.height - (State.reset.reg 0).toNat % State.reset.cfg.height) ∧ 1 ≤ 15 ∧
      0xFFF < (State.reset.setI 0xFF2).i.toNat + 15 - 1 ∧ 0xFFF < (State.reset.setI 0x1000).i.toNat + 1 - 1 := by decide
theorem witness_DrawingTwiceRestoresTheDisplay :
    (screen 4 2 0xFF 2 3).gridWf = true ∧ (screen 4 2 0xFF 2 3).status = .running ∧
      ∃ t, exec (.drw 0 1 2) (screen 4 2 0xFF 2 3) = .next t ∧ t.status = .running ∧ t.cfg = (screen 4 2 0xFF 2 3).cfg ∧
        t.mem = (screen 4 2 0xFF 2 3).mem ∧ t.i = (screen 4 2 0xFF 2 3).i ∧ t.reg 0 = (screen 4 2 0xFF 2 3).reg 0 ∧
        t.reg 1 = (screen 4 2 0xFF 2 3).reg 1 :=
  ⟨by decide, rfl, _, rfl, rfl, rfl, rfl, rfl, by decide, by decide⟩
theorem witness_OnlyClearAndDrawWriteTheDisplay :
    (screen 4 2 0xFF 2 3).gridWf = true ∧ ∃ t, exec (.drw 0 1 2) (screen 4 2 0xFF 2 3) = .next t ∧
      t.pixel 1 2 ≠ (screen 4 2 0xFF 2 3).pixel 1 2 := ⟨by decide, _, rfl, by decide⟩
theorem witness_KeySkips :
    ((keyed 15 15).reg 2).toNat = (15 : Key).val ∧ ((keyed 0 15).reg 2).toNat = (0 : Key).val ∧ 15 < ((keyed 16 0).reg 2).toNat := by
  decide
theorem witness_KeyWaitLatchesThenDelivers :
    (State.reset.wait = .idle ∧ ∀ k, State.reset.keyHeld k = false) ∧
      ((State.reset.setKey 15 true).wait = .idle ∧ (State.reset.setKey 15 true).keyHeld 15 = true ∧
        ∀ j, j < 15 → (State.reset.setKey 15 true).keyHeld j = false) ∧
      (((State.reset.setKey 0 true).setWait (.keyLatched 0)).wait = .keyLatched 0 ∧
        ((State.reset.setKey 0 true).setWait (.keyLatched 0)).keyHeld 0 = true) ∧
      ((State.reset.setWait (.keyLatched 0)).wait = .keyLatched 0 ∧
        (State.reset.setWait (.keyLatched 0)).keyHeld 0 = false) := by decide
theorem witness_OnlyAcknowledgeClearsDirty :
    ({ State.reset with dirty := true } : State).dirty = true ∧
      ({ State.reset with dirty := true } : State).schedule.head? ≠ some .ackDirty ∧
      ∃ t, step { State.reset with dirty := true } = .next t := ⟨rfl, by decide, _, rfl⟩
theorem witness_OnlyKeyInstructionsSeeTheKeypad :
    (∀ x : Reg, Instr.ret ≠ .skp x ∧ Instr.ret ≠ .sknp x ∧ Instr.ret ≠ .ldVxK x) ∧ ∃ t, exec .ret nested = .next t :=
  ⟨by decide, _, rfl⟩
theorem witness_OnlyCallAndReturnTouchTheStack :
    (∃ t, exec .ret nested = .next t ∧ t.sp ≠ nested.sp) ∧
      ∃ t, exec (.call 0x300) State.reset = .next t ∧ t.sp ≠ State.reset.sp ∧ t.stack ≠ State.reset.stack :=
  ⟨⟨_, rfl, by decide⟩, _, rfl, by decide, by decide⟩
theorem witness_OnlyStoresChangeMemory :
    (∃ t, exec (.ldB 3) (indexed 0xFFD 255) = .next t ∧ t.mem.read 0xFFF ≠ (indexed 0xFFD 255).mem.read 0xFFF) ∧
      ∃ t, exec (.stRegs 4) five = .next t ∧ t.mem.read 0x304 ≠ five.mem.read 0x304 :=
  ⟨⟨_, rfl, by decide⟩, _, rfl, by decide⟩
theorem witness_TimersIndexAndWaitHaveTheirWriters :
    (∃ t, exec (.ldDtVx 3) (indexed 0 1) = .next t ∧ t.dt ≠ (indexed 0 1).dt) ∧
      (∃ t, exec (.ldStVx 3) (indexed 0 1) = .next t ∧ t.st ≠ (indexed 0 1).st) ∧
      (∃ t, exec (.addI 3) (indexed 0 1) = .next t ∧ t.i ≠ (indexed 0 1).i) ∧
      ∃ t, exec (.ldVxK 3) (State.reset.setKey 15 true) = .next t ∧ t.wait ≠ (State.reset.setKey 15 true).wait :=
  ⟨⟨_, rfl, by decide⟩, ⟨_, rfl, by decide⟩, ⟨_, rfl, by decide⟩, _, rfl, by decide⟩
theorem witness_FatalErrorsArePrecise :
    (∃ t, exec .ret State.reset = .next t ∧ t.status ≠ State.reset.status) ∧
      (∃ t, exec (.call 0) fullStack = .next t ∧ t.status ≠ fullStack.status) ∧
      (∃ t, exec (.stRegs 15) (indexed 0xFF1 0) = .next t ∧ t.status ≠ (indexed 0xFF1 0).status) ∧
      ∃ t, exec (.skp 2) (keyed 16 0) = .next t ∧ t.status ≠ (keyed 16 0).status :=
  ⟨⟨_, rfl, by decide⟩, ⟨_, rfl, by decide⟩, ⟨_, rfl, by decide⟩, _, rfl, by decide⟩

/-- `F00A` at 0x200 with key 0 latched and held. -/
def waiting : State := (placeWord (State.reset.setKey 0 true) 0xF00A).setWait (.keyLatched 0)

theorem witness_EveryStepKeepsTheInvariant :
    (State.reset.inv = true ∧ ∃ t, step State.reset = .next t) ∧ waiting.inv = true ∧ ∃ t, step waiting = .next t :=
  ⟨⟨by decide, _, rfl⟩, by decide, _, rfl⟩
theorem witness_InvariantHoldsAfterReset : ∃ s, boot Config.default fontParameter [0x12, 0x00] = .ok s := ⟨_, rfl⟩
theorem witness_ResetLoadsFontAndProgram :
    Config.default.wf = true ∧ ({ Config.default with width := 1, height := 1, ips := 0 } : Config).wf = true ∧
      ([] : List Byte).length ≤ 3584 ∧ (List.replicate 3584 (0 : Byte)).length ≤ 3584 :=
  ⟨by decide, by decide, by decide, by rw [List.length_replicate]⟩
theorem witness_OversizedImageIsRefused :
    3584 < (List.replicate 3585 (0 : Byte)).length ∧ (List.replicate 3584 (0 : Byte)).length = 3584 ∧ Config.default.wf = true :=
  ⟨by rw [List.length_replicate]; decide, by rw [List.length_replicate], by decide⟩
theorem witness_FinishedProgramStaysFinished :
    (placeWord State.reset 0x1200).finished = true ∧ (placeWord (at' 4094 State.reset) 0x1FFE).finished = true := by decide

end Sys2Proof.Tests
end

section
/-! PROOF. The byte accesses in and out of range, and the memory primitives (20_memory.md R57, R58). -/

namespace Sys2Proof.Machine

theorem Memory.readByte_of_le (m : Memory) {a : Nat} (h : a ≤ 0xFFF) : m.readByte a = some (m.read a) :=
  if_pos ((inRange_iff a 1).2 (by omega))

theorem Memory.readByte_of_gt (m : Memory) {a : Nat} (h : 0xFFF < a) : m.readByte a = none :=
  if_neg fun hr => by have := (inRange_iff a 1).1 hr; omega

theorem Memory.writeByte_of_le (m : Memory) {a : Nat} (b : Byte) (h : a ≤ 0xFFF) : m.writeByte a b = some (m.write a b) :=
  if_pos ((inRange_iff a 1).2 (by omega))

theorem Memory.writeByte_of_gt (m : Memory) {a : Nat} (b : Byte) (h : 0xFFF < a) : m.writeByte a b = none :=
  if_neg fun hr => by have := (inRange_iff a 1).1 hr; omega

/-- The byte written is the one read back (20_memory.md R58). -/
@[simp] theorem Memory.read_write_same (m : Memory) (a : Nat) (b : Byte) : (m.write a b).read a = b := by
  rw [Memory.read_write, if_pos rfl]

/-- A write leaves every other byte (20_memory.md R58). -/
theorem Memory.read_write_of_ne (m : Memory) {a c : Nat} (b : Byte) (h : c ≠ a) : (m.write a b).read c = m.read c := by
  rw [Memory.read_write, if_neg h]

/-- Settles O8: each access by its equation in range and its equation out of range, the write by what its memory reads as, the
word by the value of its two bytes. -/
theorem memoryPrimitives : Obligations.MemoryPrimitives := by
  intro m a b
  refine ⟨fun h => ⟨m.readByte_of_le h, m.write a b, m.writeByte_of_le b h, m.read_write_same a b,
      fun c hc => m.read_write_of_ne b hc⟩,
    fun h => ⟨m.readByte_of_gt h, m.writeByte_of_gt b h⟩,
    fun h => ⟨wordOfBytes (m.read a) (m.read (a + 1)), m.readWord_of_le (by omega), ?_⟩,
    fun h => m.readWord_of_gt (by omega)⟩
  rw [wordOfBytes_toNat, Nat.mul_comm]

end Sys2Proof.Machine
end

section
/-! PROOF. The decoder against the opcode map (30_encoding.md R75, R76, R78): what each word decodes to lies in the row that
selects the word, or is UNMAPPED and no row selects it; and no two rows select one word. -/

namespace Sys2Proof

open Laws.EncodeInRow (selects_digit3 selects_digit30 selects_digit3NN)

/-! ## What a row that selects a word says of its digits -/

theorem Row.selects_iff_and (r : Row) (w : Word) : r.selects w = true ↔ w &&& r.mask = r.value := beq_iff_eq

/-- A word has the digit of the row that selects it, where the row checks the whole digit. -/
theorem digit_eq_of_selects {r : Row} {w : Word} {k : Nat} (hm : digit r.mask k = 15) (h : r.selects w = true) :
    digit w k = digit r.value k := by
  have hand := digit_and w r.mask k
  rw [(r.selects_iff_and w).1 h, hm] at hand
  exact Fin.ext (hand.trans (digit_and_F _)).symm

/-- A word has the low byte of the row that selects it, where the row checks the whole byte. -/
theorem fieldNN_eq_of_selects {r : Row} {w : Word} (hm : digit r.mask 1 = 15 ∧ digit r.mask 0 = 15) (h : r.selects w = true) :
    (fieldNN w).toNat = (fieldNN r.value).toNat := by
  rw [fieldNN_toNat, fieldNN_toNat, digit_eq_of_selects hm.1 h, digit_eq_of_selects hm.2 h]

/-- Every row checks the first digit, the family of the word (30_encoding.md R76). -/
theorem digit3_eq_of_selects {r : Row} (hr : r ∈ opcodeRows) {w : Word} (h : r.selects w = true) :
    digit w 3 = digit r.value 3 :=
  digit_eq_of_selects ((by decide : ∀ r ∈ opcodeRows, digit r.mask 3 = 15) r hr) h

/-- No word lies in two rows (30_encoding.md R75): what the word has under both masks, both values would have. -/
theorem row_eq_of_selects {r q : Row} (hr : r ∈ opcodeRows) (hq : q ∈ opcodeRows) {w : Word} (h : r.selects w = true)
    (h' : q.selects w = true) : r = q := by
  rw [Row.selects_iff_and] at h h'
  refine (by decide : ∀ r ∈ opcodeRows, ∀ q ∈ opcodeRows, r.value &&& q.mask = q.value &&& r.mask → r = q) r hr q hq ?_
  rw [← h, ← h', BitVec.and_assoc, BitVec.and_assoc, BitVec.and_comm r.mask]

/-! ## The words that no row selects, family by family -/

theorem isUnmapped_false_iff (w : Word) : isUnmapped false w = true ↔ ∀ r ∈ opcodeRows, ¬ r.selects w = true := by
  simp [isUnmapped, opcodeMap]

/-- A word is unmapped when each row of its family checks digit `k` and wants it among `ds`, and the word has none of them. -/
theorem isUnmapped_of_digit {w : Word} (d : Fin 16) (k : Nat) (ds : List Nat)
    (rows : ∀ r ∈ opcodeRows, digit r.value 3 = d → digit r.mask k = 15 ∧ (digit r.value k).val ∈ ds)
    (h3 : digit w 3 = d) (h : (digit w k).val ∉ ds) : isUnmapped false w = true := by
  refine (isUnmapped_false_iff w).2 fun r hr hs => h ?_
  obtain ⟨hm, hv⟩ := rows r hr (digit3_eq_of_selects hr hs ▸ h3)
  rwa [digit_eq_of_selects hm hs]

/-- A word is unmapped when each row of its family checks the low byte and wants it among `bs`, and the word has none of them. -/
theorem isUnmapped_of_fieldNN {w : Word} (d : Fin 16) (bs : List Nat)
    (rows : ∀ r ∈ opcodeRows, digit r.value 3 = d →
      (digit r.mask 1 = 15 ∧ digit r.mask 0 = 15) ∧ (fieldNN r.value).toNat ∈ bs)
    (h3 : digit w 3 = d) (h : (fieldNN w).toNat ∉ bs) : isUnmapped false w = true := by
  refine (isUnmapped_false_iff w).2 fun r hr hs => h ?_
  obtain ⟨hm, hv⟩ := rows r hr (digit3_eq_of_selects hr hs ▸ h3)
  rwa [fieldNN_eq_of_selects hm hs]

/-! ## Every word decodes into its row -/

/-- The instruction has the name of a row that selects the word, or it is UNMAPPED of that word and no row selects it. -/
def InRow (w : Word) (i : Instr) : Prop :=
  (∃ r ∈ opcodeRows, r.selects w = true ∧ i.mnemonic = r.mnemonic) ∨ (isUnmapped false w = true ∧ i = .unmapped w)

theorem InRow.of_row {w : Word} {i : Instr} (r : Row) (hr : r ∈ opcodeRows) (hn : i.mnemonic = r.mnemonic)
    (hs : r.selects w = true) : InRow w i := .inl ⟨r, hr, hs, hn⟩

theorem InRow.unmapped {w : Word} (h : isUnmapped false w = true) : InRow w (.unmapped w) := .inr ⟨h, rfl⟩

/-- A word is its first two digits and its low byte. -/
theorem word_eq_of_fields {v w : Word} (h3 : digit w 3 = digit v 3) (hx : fieldX w = fieldX v)
    (hn : (fieldNN w).toNat = (fieldNN v).toNat) : w = v := by
  rw [fieldNN_toNat, fieldNN_toNat] at hn
  exact word_ext_digits h3 hx (Fin.ext (by omega)) (Fin.ext (by omega))

theorem decode0_inRow {w : Word} (h3 : digit w 3 = 0) : InRow w (decode0 false w) := by
  unfold decode0
  split
  next hx =>
    have hx : fieldX w = 0 := by simpa using hx
    split
    next hn =>
      obtain rfl : w = 0x00E0 := word_eq_of_fields h3 hx hn
      exact .of_row ⟨"CLS", 0xFFFF, 0x00E0⟩ (by decide) rfl (by decide)
    next hn =>
      obtain rfl : w = 0x00EE := word_eq_of_fields h3 hx hn
      exact .of_row ⟨"RET", 0xFFFF, 0x00EE⟩ (by decide) rfl (by decide)
    next => exact .unmapped (isUnmapped_of_fieldNN 0 [0xE0, 0xEE] (by decide) h3 (by simp_all))
  next hx =>
    exact .unmapped (isUnmapped_of_digit 0 2 [0] (by decide) h3 fun h => hx (beq_iff_eq.2 (Fin.ext (List.mem_singleton.1 h))))

theorem decode8_inRow {w : Word} (h3 : digit w 3 = 8) : InRow w (decode8 w) := by
  unfold decode8
  split
  next hn => exact .of_row ⟨"LD_REG", 0xF00F, 0x8000⟩ (by decide) rfl (selects_digit30 8 0 rfl h3 (Fin.ext hn))
  next hn => exact .of_row ⟨"OR", 0xF00F, 0x8001⟩ (by decide) rfl (selects_digit30 8 1 rfl h3 (Fin.ext hn))
  next hn => exact .of_row ⟨"AND", 0xF00F, 0x8002⟩ (by decide) rfl (selects_digit30 8 2 rfl h3 (Fin.ext hn))
  next hn => exact .of_row ⟨"XOR", 0xF00F, 0x8003⟩ (by decide) rfl (selects_digit30 8 3 rfl h3 (Fin.ext hn))
  next hn => exact .of_row ⟨"ADD_REG", 0xF00F, 0x8004⟩ (by decide) rfl (selects_digit30 8 4 rfl h3 (Fin.ext hn))
  next hn => exact .of_row ⟨"SUB", 0xF00F, 0x8005⟩ (by decide) rfl (selects_digit30 8 5 rfl h3 (Fin.ext hn))
  next hn => exact .of_row ⟨"SHR", 0xF00F, 0x8006⟩ (by decide) rfl (selects_digit30 8 6 rfl h3 (Fin.ext hn))
  next hn => exact .of_row ⟨"SUBN", 0xF00F, 0x8007⟩ (by decide) rfl (selects_digit30 8 7 rfl h3 (Fin.ext hn))
  next hn => exact .of_row ⟨"SHL", 0xF00F, 0x800E⟩ (by decide) rfl (selects_digit30 8 14 rfl h3 (Fin.ext hn))
  next => exact .unmapped (isUnmapped_of_digit 8 0 [0, 1, 2, 3, 4, 5, 6, 7, 14] (by decide) h3 (by simp_all [fieldN]))

theorem decodeE_inRow {w : Word} (h3 : digit w 3 = 14) : InRow w (decodeE w) := by
  unfold decodeE
  split
  next hn => exact .of_row ⟨"SKP", 0xF0FF, 0xE09E⟩ (by decide) rfl (selects_digit3NN 14 0x9E rfl h3 hn)
  next hn => exact .of_row ⟨"SKNP", 0xF0FF, 0xE0A1⟩ (by decide) rfl (selects_digit3NN 14 0xA1 rfl h3 hn)
  next => exact .unmapped (isUnmapped_of_fieldNN 14 [0x9E, 0xA1] (by decide) h3 (by simp_all))

theorem decodeF_inRow {w : Word} (h3 : digit w 3 = 15) : InRow w (decodeF w) := by
  unfold decodeF
  split
  next hn => exact .of_row ⟨"LD_VX_DT", 0xF0FF, 0xF007⟩ (by decide) rfl (selects_digit3NN 15 0x07 rfl h3 hn)
  next hn => exact .of_row ⟨"LD_VX_K", 0xF0FF, 0xF00A⟩ (by decide) rfl (selects_digit3NN 15 0x0A rfl h3 hn)
  next hn => exact .of_row ⟨"LD_DT_VX", 0xF0FF, 0xF015⟩ (by decide) rfl (selects_digit3NN 15 0x15 rfl h3 hn)
  next hn => exact .of_row ⟨"LD_ST_VX", 0xF0FF, 0xF018⟩ (by decide) rfl (selects_digit3NN 15 0x18 rfl h3 hn)
  next hn => exact .of_row ⟨"ADD_I", 0xF0FF, 0xF01E⟩ (by decide) rfl (selects_digit3NN 15 0x1E rfl h3 hn)
  next hn => exact .of_row ⟨"LD_F", 0xF0FF, 0xF029⟩ (by decide) rfl (selects_digit3NN 15 0x29 rfl h3 hn)
  next hn => exact .of_row ⟨"LD_B", 0xF0FF, 0xF033⟩ (by decide) rfl (selects_digit3NN 15 0x33 rfl h3 hn)
  next hn => exact .of_row ⟨"ST_REGS", 0xF0FF, 0xF055⟩ (by decide) rfl (selects_digit3NN 15 0x55 rfl h3 hn)
  next hn => exact .of_row ⟨"LD_REGS", 0xF0FF, 0xF065⟩ (by decide) rfl (selects_digit3NN 15 0x65 rfl h3 hn)
  next =>
    exact .unmapped (isUnmapped_of_fieldNN 15 [0x07, 0x0A, 0x15, 0x18, 0x1E, 0x29, 0x33, 0x55, 0x65] (by decide) h3 (by simp_all))

/-- Families 5 and 9 check the last digit to be 0: the row's instruction if it is, UNMAPPED if not. -/
theorem ite_fieldN_inRow {w : Word} {i : Instr} (d : Fin 16) (r : Row) (hr : r ∈ opcodeRows) (hn : i.mnemonic = r.mnemonic)
    (hs : fieldN w = 0 → r.selects w = true)
    (rows : ∀ r ∈ opcodeRows, digit r.value 3 = d → digit r.mask 0 = 15 ∧ (digit r.value 0).val ∈ [0])
    (h3 : digit w 3 = d) : InRow w (if false || fieldN w == 0 then i else .unmapped w) := by
  split
  next h => exact .of_row r hr hn (hs (by simpa using h))
  next h => exact .unmapped (isUnmapped_of_digit d 0 [0] rows h3 fun h0 => h (beq_iff_eq.2 (Fin.ext (List.mem_singleton.1 h0))))

/-- Each word decodes to an instruction with the name of a row that selects it, or to UNMAPPED when none does. -/
theorem decode_inRow (w : Word) : InRow w (decode false w) := by
  unfold decode
  split
  next h => exact decode0_inRow (Fin.ext h)
  next h => exact .of_row ⟨"JP", 0xF000, 0x1000⟩ (by decide) rfl (selects_digit3 1 rfl (Fin.ext h))
  next h => exact .of_row ⟨"CALL", 0xF000, 0x2000⟩ (by decide) rfl (selects_digit3 2 rfl (Fin.ext h))
  next h => exact .of_row ⟨"SE_IMM", 0xF000, 0x3000⟩ (by decide) rfl (selects_digit3 3 rfl (Fin.ext h))
  next h => exact .of_row ⟨"SNE_IMM", 0xF000, 0x4000⟩ (by decide) rfl (selects_digit3 4 rfl (Fin.ext h))
  next h =>
    exact ite_fieldN_inRow 5 ⟨"SE_REG", 0xF00F, 0x5000⟩ (by decide) rfl (selects_digit30 5 0 rfl (Fin.ext h)) (by decide)
      (Fin.ext h)
  next h => exact .of_row ⟨"LD_IMM", 0xF000, 0x6000⟩ (by decide) rfl (selects_digit3 6 rfl (Fin.ext h))
  next h => exact .of_row ⟨"ADD_IMM", 0xF000, 0x7000⟩ (by decide) rfl (selects_digit3 7 rfl (Fin.ext h))
  next h => exact decode8_inRow (Fin.ext h)
  next h =>
    exact ite_fieldN_inRow 9 ⟨"SNE_REG", 0xF00F, 0x9000⟩ (by decide) rfl (selects_digit30 9 0 rfl (Fin.ext h)) (by decide)
      (Fin.ext h)
  next h => exact .of_row ⟨"LD_I", 0xF000, 0xA000⟩ (by decide) rfl (selects_digit3 10 rfl (Fin.ext h))
  next h => exact .of_row ⟨"JP_V0", 0xF000, 0xB000⟩ (by decide) rfl (selects_digit3 11 rfl (Fin.ext h))
  next h => exact .of_row ⟨"RND", 0xF000, 0xC000⟩ (by decide) rfl (selects_digit3 12 rfl (Fin.ext h))
  next h => exact .of_row ⟨"DRW", 0xF000, 0xD000⟩ (by decide) rfl (selects_digit3 13 rfl (Fin.ext h))
  next h => exact decodeE_inRow (Fin.ext h)
  next =>
    have hlt := (digit w 3).isLt
    have h : (digit w 3).val = 15 := by grind
    exact decodeF_inRow (Fin.ext h)

/-! ## The statement -/

/-- The decoder answers with the row that selects the word: no other row does (30_encoding.md R75). -/
theorem decode_mnemonic_of_selects {r : Row} (hr : r ∈ opcodeRows) {w : Word} (h : r.selects w = true) :
    (decode false w).mnemonic = r.mnemonic := by
  obtain ⟨q, hq, hs, hn⟩ | ⟨hu, -⟩ := decode_inRow w
  · rw [hn, row_eq_of_selects hq hr hs h]
  · exact absurd h ((isUnmapped_false_iff w).1 hu r hr)

/-- A word that no row selects decodes to UNMAPPED (30_encoding.md R78). -/
theorem decode_eq_unmapped {w : Word} (h : isUnmapped false w = true) : decode false w = .unmapped w := by
  obtain ⟨r, hr, hs, -⟩ | ⟨-, hd⟩ := decode_inRow w
  · exact absurd hs ((isUnmapped_false_iff w).1 h r hr)
  · exact hd

/-- Settles O3: every word decodes into the row that selects it or to UNMAPPED (`decode_inRow`), and the rows exclude each other
(`row_eq_of_selects`). -/
theorem decoderFollowsMaskAndMatch : Obligations.DecoderFollowsMaskAndMatch := by
  intro w
  simp only [← Row.selects_iff_and, ne_eq]
  exact ⟨fun r hr h => decode_mnemonic_of_selects hr h, fun r hr q hq h h' => row_eq_of_selects hr hq h h',
    fun h => decode_eq_unmapped ((isUnmapped_false_iff w).2 h)⟩

end Sys2Proof
end

section
/-! PROOF. Control transfer: call and return with their two outcomes each, the call chain, jumps, skips and the unmapped no-op
(40_control_flow.md R100 to R106, R108). -/

namespace Sys2Proof.Machine

/-! ## Return -/

theorem exec_ret_of_pos {s : State} (h : 0 < s.sp.val) : exec .ret s =
    .next { s with pc := s.stack.get ⟨s.sp.val - 1, by omega⟩, sp := ⟨s.sp.val - 1, by omega⟩ } := by
  obtain ⟨h0, -⟩ | ⟨_, hs⟩ := execRet_cases s
  · exact absurd (congrArg Fin.val h0) h.ne'
  · exact hs

theorem exec_ret_of_empty {s : State} (h : s.sp = 0) :
    exec .ret s = .next { s with status := .halted ⟨.stackUnderflow, some 0x00EE, s.pc - 2⟩ } := by
  obtain ⟨-, hs⟩ | ⟨h0, -⟩ := execRet_cases s
  · exact hs
  · exact absurd (congrArg Fin.val h) h0.ne'

/-- Settles O15: each outcome by its equation; the slot read is the one below `SP`. -/
theorem returnPopsOrUnderflows : Obligations.ReturnPopsOrUnderflows := by
  refine fun s => ⟨fun k hk => ?_, exec_ret_of_empty⟩
  have hlt : k < 16 := by omega
  refine ⟨_, exec_ret_of_pos (by omega), by simp [hk], ?_, rfl⟩
  simp [hk, hlt, Vector.get_eq_getElem]

/-! ## Call -/

theorem exec_call_of_lt (nnn : Addr) {s : State} (h : s.sp.val < 16) : exec (.call nnn) s =
    .next { s with pc := addrOperand nnn, stack := s.stack.set s.sp.val s.pc h, sp := ⟨s.sp.val + 1, by omega⟩ } := by
  obtain ⟨h16, -⟩ | ⟨_, hs⟩ := execCall_cases nnn s
  · exact absurd (congrArg Fin.val h16) h.ne
  · exact hs

theorem exec_call_of_full (nnn : Addr) {s : State} (h : s.sp = 16) : exec (.call nnn) s =
    .next { s with status := .halted ⟨.stackOverflow, some (BitVec.ofNat 16 (0x2000 + nnn.toNat)), s.pc - 2⟩ } := by
  obtain ⟨-, hs⟩ | ⟨h16, -⟩ := execCall_cases nnn s
  · exact hs
  · exact absurd (congrArg Fin.val h) h16.ne

theorem addrOperand_toNat (nnn : Addr) : (addrOperand nnn).toNat = nnn.toNat :=
  BitVec.toNat_setWidth_of_le (by decide)

/-- While the stack is not full, a call counts one entry more and leaves the status (40_control_flow.md R102). -/
theorem exec_call_counts {nnn : Addr} {s t : State} (h : s.sp.val < 16) (ht : exec (.call nnn) s = .next t) :
    t.sp.val = s.sp.val + 1 ∧ t.status = s.status := by
  rw [exec_call_of_lt nnn h] at ht
  cases ht
  exact ⟨rfl, rfl⟩

/-- Of calls made one after another on an empty stack, the first sixteen each push one entry and raise nothing. -/
theorem callChain_counts {at' : Nat → State} {target : Nat → Addr} (hsp : (at' 0).sp = 0)
    (hrun : (at' 0).status = .running) (hcall : ∀ k, exec (.call (target k)) (at' k) = .next (at' (k + 1))) :
    ∀ k, k ≤ 16 → (at' k).sp.val = k ∧ (at' k).status = .running
  | 0, _ => ⟨congrArg Fin.val hsp, hrun⟩
  | k + 1, hk => by
    obtain ⟨ihsp, ihrun⟩ := callChain_counts hsp hrun hcall k (by omega)
    obtain ⟨hcount, hstatus⟩ := exec_call_counts (by omega) (hcall k)
    exact ⟨by rw [hcount, ihsp], hstatus.trans ihrun⟩

/-- Settles O16: each outcome by its equation; the chain reaches `SP = 16` by `callChain_counts`, where the next call finds the
stack full. -/
theorem callPushesOrOverflows : Obligations.CallPushesOrOverflows := by
  refine ⟨fun nnn s => ⟨fun h => ?_, exec_call_of_full nnn⟩, fun at' target hsp hrun hcall => ?_⟩
  · exact ⟨_, exec_call_of_lt nnn h, rfl, addrOperand_toNat nnn, Vector.getElem?_set_self h,
      fun k hk => Vector.getElem?_set_ne h hk.symm, rfl⟩
  · have hcounts := callChain_counts hsp hrun hcall
    obtain ⟨hfull, -⟩ := hcounts 16 le_rfl
    have h17 := hcall 16
    rw [exec_call_of_full (target 16) (Fin.ext hfull)] at h17
    exact ⟨hcounts, congrArg State.status (Host.Outcome.next.inj h17).symm⟩

/-! ## Jump -/

/-- Settles O18: the jump is its target written to `PC`. -/
theorem jumpGoesToItsTarget : Obligations.JumpGoesToItsTarget :=
  fun nnn s => ⟨s.setPc (addrOperand nnn), rfl, addrOperand_toNat nnn, rfl⟩

/-! ## Skips -/

/-- A skip on equal bytes (40_control_flow.md R103, R105). -/
theorem State.skipIf_beq (s : State) (a b : Byte) :
    s.skipIf (a == b) = s.setPc (if a.toNat = b.toNat then s.pc + 2 else s.pc) := by
  simp only [State.skipIf_eq, beq_iff_eq, BitVec.toNat_inj]

/-- A skip on different bytes (40_control_flow.md R104, R106). -/
theorem State.skipIf_bne (s : State) (a b : Byte) :
    s.skipIf (a != b) = s.setPc (if a.toNat = b.toNat then s.pc else s.pc + 2) := by
  simp only [State.skipIf_eq, bne_iff_ne, BitVec.toNat_inj, ne_eq, ite_not]

/-- Settles O19: both are skips on a comparison of `VX` with `NN`. -/
theorem immediateSkips : Obligations.ImmediateSkips := fun x nn s =>
  ⟨⟨_, congrArg Host.Outcome.next (s.skipIf_beq (s.reg x) nn), rfl, rfl⟩,
    ⟨_, congrArg Host.Outcome.next (s.skipIf_bne (s.reg x) nn), rfl, rfl⟩⟩

/-- Settles O20: both are skips on a comparison of `VX` with `VY`. -/
theorem registerSkips : Obligations.RegisterSkips := fun x y s =>
  ⟨⟨_, congrArg Host.Outcome.next (s.skipIf_beq (s.reg x) (s.reg y)), rfl, rfl⟩,
    ⟨_, congrArg Host.Outcome.next (s.skipIf_bne (s.reg x) (s.reg y)), rfl, rfl⟩⟩

/-! ## The unmapped word -/

/-- Settles O22: the diagnostic is the one update, and by O3 a word no row selects decodes to UNMAPPED. -/
theorem unmappedWordIsANoOp : Obligations.UnmappedWordIsANoOp := by
  intro w s
  obtain ⟨-, -, hdecode⟩ := decoderFollowsMaskAndMatch w
  exact ⟨⟨s.raiseDiag w, rfl, ⟨⟨w, s.pc - 2⟩, rfl, rfl, BitVec.sub_add_cancel s.pc 2⟩, rfl⟩, hdecode⟩

end Sys2Proof.Machine
end

section
/-! PROOF. The instructions that write one register and no flag (41_alu.md R120 to R122). -/

namespace Sys2Proof.Machine

/-- An instruction that answers with `b` written to `VX` changes no other register and nothing but the registers. -/
theorem exec_writes_one_register {i : Instr} {s : State} {x : Reg} {b : Byte} (h : exec i s = .next (s.setReg x b)) :
    ∃ t, exec i s = .next t ∧ t.reg x = b ∧ (∀ r, r ≠ x → t.reg r = s.reg r) ∧ t = { s with v := t.v } :=
  ⟨s.setReg x b, h, s.reg_setReg_self x b, fun _ hr => s.reg_setReg_ne b hr, rfl⟩

theorem exec_ldImm (x : Reg) (nn : Byte) (s : State) : exec (.ldImm x nn) s = .next (s.setReg x nn) := rfl

theorem exec_ldReg (x y : Reg) (s : State) : exec (.ldReg x y) s = .next (s.setReg x (s.reg y)) := rfl

theorem exec_addImm (x : Reg) (nn : Byte) (s : State) : exec (.addImm x nn) s = .next (s.setReg x (s.reg x + nn)) := rfl

/-- Settles O23: each load writes `VX` alone. -/
theorem loadsWriteOneRegister : Obligations.LoadsWriteOneRegister := fun x y nn s =>
  ⟨exec_writes_one_register (exec_ldImm x nn s), exec_writes_one_register (exec_ldReg x y s)⟩

/-- Settles O24: the sum of two bytes is what is written to `VX`, and it is the sum of the naturals modulo 256. -/
theorem addImmediateWraps : Obligations.AddImmediateWraps := by
  intro x nn s
  obtain ⟨t, ht, hx, hframe⟩ := exec_writes_one_register (exec_addImm x nn s)
  have hsum : (t.reg x).toNat = ((s.reg x).toNat + nn.toNat) % 256 := by rw [hx, BitVec.toNat_add]
  exact ⟨t, ht, hsum, hframe⟩

end Sys2Proof.Machine
end

section
/-! PROOF. The instructions that write the index register and nothing else (42_index_memory.md R150, R151). -/

namespace Sys2Proof.Machine

theorem byteOperand_toNat (b : Byte) : (byteOperand b).toNat = b.toNat :=
  BitVec.toNat_setWidth_of_le (by decide)

/-- An instruction that answers with `w` written to `I` changes nothing but `I`. -/
theorem exec_writes_index {i : Instr} {s : State} {w : Word} (h : exec i s = .next (s.setI w)) :
    ∃ t, exec i s = .next t ∧ t.i.toNat = w.toNat ∧ t = { s with i := t.i } :=
  ⟨s.setI w, h, rfl, rfl⟩

theorem exec_ldI (nnn : Addr) (s : State) : exec (.ldI nnn) s = .next (s.setI (addrOperand nnn)) := rfl

theorem exec_addI (x : Reg) (s : State) : exec (.addI x) s = .next (s.setI (s.i + byteOperand (s.reg x))) := rfl

/-- Settles O31: both write `I` alone; the word written is the zero-extended `NNN`, or the sum of words, which is the sum of the
naturals modulo 65536. -/
theorem indexIsLoadedAndAdvanced : Obligations.IndexIsLoadedAndAdvanced := by
  intro nnn x s
  have hload : (addrOperand nnn).toNat = nnn.toNat := addrOperand_toNat nnn
  have hsum : (s.i + byteOperand (s.reg x)).toNat = (s.i.toNat + (s.reg x).toNat) % 65536 := by
    rw [BitVec.toNat_add, byteOperand_toNat]
  exact ⟨hload ▸ exec_writes_index (exec_ldI nnn s), hsum ▸ exec_writes_index (exec_addI x s)⟩

end Sys2Proof.Machine
end

section
/-! PROOF. The instructions that read and load the timers, and the tone (44_keypad_timers.md R182, R185, R186). -/

namespace Sys2Proof.Machine

/-- The tone sounds exactly while `ST` is above 0 (44_keypad_timers.md R186). -/
theorem State.tone_iff (s : State) : s.tone = true ↔ 0 < s.st.toNat := decide_eq_true_iff

theorem exec_ldVxDt (x : Reg) (s : State) : exec (.ldVxDt x) s = .next (s.setReg x s.dt) := rfl

theorem exec_ldDtVx (x : Reg) (s : State) : exec (.ldDtVx x) s = .next (s.setDt (s.reg x)) := rfl

theorem exec_ldStVx (x : Reg) (s : State) : exec (.ldStVx x) s = .next (s.setSt (s.reg x)) := rfl

/-- Settles O44: the read writes `VX` alone, each load writes its timer alone, and the tone of the state after the load of `ST`
is read from that `ST`. -/
theorem timersAreReadAndLoaded : Obligations.TimersAreReadAndLoaded := fun x s =>
  ⟨exec_writes_one_register (exec_ldVxDt x s),
    ⟨s.setDt (s.reg x), exec_ldDtVx x s, rfl, rfl⟩,
    ⟨s.setSt (s.reg x), exec_ldStVx x s, rfl, State.tone_iff _, rfl⟩⟩

end Sys2Proof.Machine
end

section
/-! PROOF. The tick of the timers and its place in a frame (60_exceptions.md R211, R214). -/

namespace Sys2Proof.Machine

/-- A timer counts down by one and stops at 0 (60_exceptions.md R211). -/
theorem countDown_toNat (b : Byte) : (countDown b).toNat = b.toNat - 1 := by
  unfold countDown
  split
  next h => rw [h]; rfl
  next h => bv_omega

/-- The keypad and the steps of a frame bring no tick: the tick is the frame's own last event (60_exceptions.md R214). -/
theorem tick_notMem_frameEvents_dropLast (c : Config) (keys : Vector Bool 16) :
    Event.tick ∉ (frameEvents c keys).dropLast := by
  rw [frameEvents, List.dropLast_concat]
  simp

theorem frameEvents_eq_concat_tick (c : Config) (keys : Vector Bool 16) :
    frameEvents c keys = (frameEvents c keys).dropLast ++ [Event.tick] := by
  rw [frameEvents, List.dropLast_concat]

/-- Settles O45: each timer by `countDown_toNat`; a frame's events are events without a tick and then one tick. -/
theorem tickCountsBothTimersDown : Obligations.TickCountsBothTimersDown := by
  refine ⟨fun s => ⟨countDown_toNat s.dt, countDown_toNat s.st, rfl⟩, fun c keys => ?_⟩
  have hnone := List.count_eq_zero.2 (tick_notMem_frameEvents_dropLast c keys)
  rw [frameEvents_eq_concat_tick, List.count_append, hnone]
  exact ⟨rfl, List.getLast?_concat⟩

end Sys2Proof.Machine
end

section
/-! PROOF. Who clears `dirty`: no meaning, no cycle and no step but the acknowledge (60_exceptions.md R218). -/

namespace Sys2Proof.Machine

theorem State.skipIf_dirty (s : State) (c : Bool) : (s.skipIf c).dirty = s.dirty := by
  rw [State.skipIf_eq, State.setPc_dirty]

theorem State.setRegsFrom_dirty (s : State) (k : Nat) (bs : List Byte) : (s.setRegsFrom k bs).dirty = s.dirty := by
  rw [State.setRegsFrom_frame]

/-- No meaning clears `dirty`: the two that write the display set it, the others leave it (10_state.md R29). -/
theorem exec_keeps_dirty_set (i : Instr) {s : State} (hd : s.dirty = true) : ∃ t, exec i s = .next t ∧ t.dirty = true := by
  cases i
  case ret => rcases execRet_cases s with ⟨_, h⟩ | ⟨_, h⟩ <;> exact ⟨_, h, hd⟩
  case call nnn => rcases execCall_cases nnn s with ⟨_, h⟩ | ⟨_, h⟩ <;> exact ⟨_, h, hd⟩
  case seImm | sneImm | seReg | sneReg => exact ⟨_, rfl, (State.skipIf_dirty ..).trans hd⟩
  case cls => exact ⟨_, rfl, rfl⟩
  case drw x y n =>
    obtain ⟨_, _, h⟩ | ⟨_, h⟩ := execDrw_cases x y n s
    · exact ⟨_, h, hd⟩
    · exact ⟨_, h, rfl⟩
  case skp x => rcases execSkp_cases x s with ⟨_, h⟩ | ⟨_, _, h⟩ <;> exact ⟨_, h, hd⟩
  case sknp x => rcases execSknp_cases x s with ⟨_, h⟩ | ⟨_, _, h⟩ <;> exact ⟨_, h, hd⟩
  case ldVxK x =>
    rcases execLdVxK_cases x s with ⟨_, _, h⟩ | ⟨_, _, _, _, h⟩ | ⟨_, _, _, h⟩ | ⟨_, _, _, h⟩ <;> exact ⟨_, h, hd⟩
  case ldB x => rcases execLdB_cases x s with ⟨_, h⟩ | ⟨_, h⟩ <;> exact ⟨_, h, hd⟩
  case stRegs x => rcases execStRegs_cases x s with ⟨_, h⟩ | ⟨_, h⟩ <;> exact ⟨_, h, hd⟩
  case ldRegs x =>
    obtain ⟨_, h⟩ | ⟨_, h⟩ := execLdRegs_cases x s
    · exact ⟨_, h, hd⟩
    · exact ⟨_, h, (State.setRegsFrom_dirty ..).trans hd⟩
  all_goals exact ⟨_, rfl, hd⟩

/-- No cycle clears `dirty` (60_exceptions.md R218). -/
theorem cycle_keeps_dirty_set {s : State} (hd : s.dirty = true) : ∃ t, cycle s = .next t ∧ t.dirty = true := by
  obtain ⟨_, _, h⟩ | ⟨_, _, h⟩ | ⟨_, _, h⟩ := cycle_cases s
  · exact ⟨_, h, hd⟩
  · exact ⟨_, h, hd⟩
  · rw [h]
    exact exec_keeps_dirty_set _ (s.afterFetch_dirty.trans hd)

/-- A step clears `dirty` only when the next event is an acknowledge. -/
theorem step_keeps_dirty_set {s : State} (hd : s.dirty = true) (hack : s.schedule.head? ≠ some .ackDirty) :
    ∃ t, step s = .next t ∧ t.dirty = true := by
  obtain ⟨_, h⟩ | ⟨_, h⟩ | ⟨_, _, _, h⟩ | ⟨hhead, _⟩ := step_cases s
  · rw [h]
    exact cycle_keeps_dirty_set (s.dropEvent_dirty.trans hd)
  · exact ⟨_, h, hd⟩
  · exact ⟨_, h, hd⟩
  · exact absurd hhead hack

theorem handOff_of_dirty {s : State} (hd : s.dirty = true) :
    (handOff s).1.display = some s.snapshot ∧ (handOff s).2 = s.ackDirty := by
  simp [handOff, hd]

/-- Settles O46: the acknowledge is its one update, the hand-off by its equation, and every other event by
`step_keeps_dirty_set`. -/
theorem onlyAcknowledgeClearsDirty : Obligations.OnlyAcknowledgeClearsDirty := by
  refine ⟨fun s => ⟨rfl, rfl⟩, fun s hd => handOff_of_dirty hd, fun s t hd hack ht => ?_⟩
  obtain ⟨u, hu, hdu⟩ := step_keeps_dirty_set hd hack
  obtain rfl : u = t := Host.Outcome.next.inj (hu.symm.trans ht)
  exact hdu

end Sys2Proof.Machine
end

section
/-! PROOF. What a reset answers, and where the image lies in memory after it (70_reset_and_hazards.md R230, R231, R233). -/

namespace Sys2Proof.Machine

/-- A reset answers a state exactly for a legal configuration and an image that fits, and then this one
(70_reset_and_hazards.md R230, R233; 00_scope.md R3). -/
theorem boot_eq_ok_iff {c : Config} {font : Vector Byte 80} {prog : List Byte} {s : State} :
    boot c font prog = .ok s ↔ c.wf = true ∧ prog.length ≤ maxProg ∧
      s = { State.reset with cfg := c, mem := bootMemory font prog, disp := blankGrid c } := by
  unfold boot
  split
  next hwf => exact iff_of_false nofun fun ⟨h, _⟩ => by simp [h] at hwf
  next hwf =>
    split
    next hlong => exact iff_of_false nofun fun ⟨_, h, _⟩ => absurd hlong (Nat.not_lt.2 h)
    next hfits =>
      rw [Except.ok.injEq, eq_comm, and_iff_right (Bool.not_not_eq.1 hwf), and_iff_right (Nat.not_lt.1 hfits)]

/-- Byte `a - 0x200` of the image lies at address `a` (70_reset_and_hazards.md R231). -/
theorem getElem?_eq_read_bootMemory (font : Vector Byte 80) {prog : List Byte} {a : Nat} (h : entryAddr ≤ a)
    (ha : a < entryAddr + prog.length) : prog[a - entryAddr]? = some ((bootMemory font prog).read a) := by
  have hk : a - entryAddr < prog.length := by omega
  rw [bootMemory, Memory.read_store, if_pos ⟨h, ha⟩, List.getElem?_eq_getElem hk, List.getD_eq_getElem _ _ hk]

/-- Settles O55: an image too long fails the length that `boot_eq_ok_iff` asks for; one of 3584 bytes meets it and reaches
exactly to 0xFFF. -/
theorem oversizedImageIsRefused : Obligations.OversizedImageIsRefused := by
  intro c font prog
  constructor
  · intro hlong s hs
    obtain ⟨-, hfits, -⟩ := boot_eq_ok_iff.1 hs
    exact absurd hlong (Nat.not_lt.2 hfits)
  · intro hlen hwf
    refine ⟨_, boot_eq_ok_iff.2 ⟨hwf, hlen.le, rfl⟩, fun a hlo hhi => ?_⟩
    have hend : a < entryAddr + prog.length := by rw [hlen]; exact Nat.lt_succ_of_le hhi
    exact getElem?_eq_read_bootMemory font hlo hend

end Sys2Proof.Machine
end

section
/-! PROOF. The encoder against the decoder (30_encoding.md R72 to R80): each format gives its fields back, a word is put together
again from its fields, the aliasing reading widens four rows, and the words no row selects are six families. -/

namespace Sys2Proof

open Laws.EncodeInRow (selects_digit3 selects_digit3NN)

/-! ## Decoding reads the fields an encoder has put there -/

@[simp] theorem digit3_encodeNNN {op : Nat} (h : op < 16) (nnn : Addr) : (digit (encodeNNN op nnn) 3).val = op :=
  congrArg Fin.val (encodeNNN_digit3 ⟨op, h⟩ nnn)

@[simp] theorem fieldNNN_encodeNNN {op : Nat} (h : op < 16) (nnn : Addr) : fieldNNN (encodeNNN op nnn) = nnn :=
  encodeNNN_fieldNNN ⟨op, h⟩ nnn

@[simp] theorem digit3_encodeXNN {op : Nat} (h : op < 16) (x : Reg) (nn : Byte) : (digit (encodeXNN op x nn) 3).val = op :=
  congrArg Fin.val (encodeXNN_digit3 ⟨op, h⟩ x nn)

@[simp] theorem fieldX_encodeXNN {op : Nat} (h : op < 16) (x : Reg) (nn : Byte) : fieldX (encodeXNN op x nn) = x :=
  encodeXNN_fieldX ⟨op, h⟩ x nn

@[simp] theorem fieldNN_encodeXNN {op : Nat} (h : op < 16) (x : Reg) (nn : Byte) : fieldNN (encodeXNN op x nn) = nn :=
  encodeXNN_fieldNN ⟨op, h⟩ x nn

@[simp] theorem digit3_encodeXYN {op n : Nat} (h : op < 16) (hn : n < 16) (x y : Reg) :
    (digit (encodeXYN op x y n) 3).val = op :=
  congrArg Fin.val (encodeXYN_digit3 ⟨op, h⟩ x y ⟨n, hn⟩)

@[simp] theorem fieldX_encodeXYN {op n : Nat} (h : op < 16) (hn : n < 16) (x y : Reg) : fieldX (encodeXYN op x y n) = x :=
  encodeXYN_fieldX ⟨op, h⟩ x y ⟨n, hn⟩

@[simp] theorem fieldY_encodeXYN {op n : Nat} (h : op < 16) (hn : n < 16) (x y : Reg) : fieldY (encodeXYN op x y n) = y :=
  encodeXYN_fieldY ⟨op, h⟩ x y ⟨n, hn⟩

@[simp] theorem fieldN_encodeXYN {op n : Nat} (h : op < 16) (hn : n < 16) (x y : Reg) :
    fieldN (encodeXYN op x y n) = ⟨n, hn⟩ :=
  encodeXYN_fieldN ⟨op, h⟩ x y ⟨n, hn⟩

@[simp] theorem digit3_encodeX {op low : Nat} (h : op < 16) (hl : low < 256) (x : Reg) :
    (digit (encodeX op x low) 3).val = op :=
  congrArg Fin.val (encodeX_digit3 ⟨op, h⟩ x ⟨low, hl⟩)

@[simp] theorem fieldX_encodeX {op low : Nat} (h : op < 16) (hl : low < 256) (x : Reg) : fieldX (encodeX op x low) = x :=
  encodeX_fieldX ⟨op, h⟩ x ⟨low, hl⟩

@[simp] theorem fieldNN_encodeX {op low : Nat} (h : op < 16) (hl : low < 256) (x : Reg) :
    (fieldNN (encodeX op x low)).toNat = low :=
  encodeX_fieldNN ⟨op, h⟩ x ⟨low, hl⟩

/-! ## The two readings of the fixed digits -/

/-- The words that only DECODE_ALIASES can make instructions of: families 5 and 9, and `0XE0` and `0XEE` (30_encoding.md R80). -/
def IsAliasedForm (w : Word) : Prop :=
  ((digit w 3).val = 0 ∧ ((fieldNN w).toNat = 0xE0 ∨ (fieldNN w).toNat = 0xEE)) ∨ (digit w 3).val = 5 ∨ (digit w 3).val = 9

theorem decode0_eq_unmapped {w : Word} (hE0 : (fieldNN w).toNat ≠ 0xE0) (hEE : (fieldNN w).toNat ≠ 0xEE) (aliases : Bool) :
    decode0 aliases w = .unmapped w := by
  unfold decode0
  split
  next =>
    split
    next h => exact absurd h hE0
    next h => exact absurd h hEE
    next => rfl
  next => rfl

/-- Outside those forms both readings decode alike. -/
theorem decode_true_eq_decode_false {w : Word} (h : ¬ IsAliasedForm w) : decode true w = decode false w := by
  simp only [IsAliasedForm, not_or, not_and] at h
  obtain ⟨h0, h5, h9⟩ := h
  unfold decode
  split
  case h_1 h3 =>
    obtain ⟨hE0, hEE⟩ := h0 h3
    rw [decode0_eq_unmapped hE0 hEE, decode0_eq_unmapped hE0 hEE]
  case h_6 h3 => exact absurd h3 h5
  case h_10 h3 => exact absurd h3 h9
  all_goals rfl

theorem isUnmapped_true_iff_rows (w : Word) :
    isUnmapped true w = true ↔ ∀ r ∈ opcodeRows, ¬ r.aliased.selects w = true := by
  simp [isUnmapped, opcodeMap]

/-- The rows R80 widens, as they stand with DECODE_ALIASES set. -/
def aliasedRows : List Row :=
  [⟨"CLS", 0xF0FF, 0x00E0⟩, ⟨"RET", 0xF0FF, 0x00EE⟩, ⟨"SE_REG", 0xF000, 0x5000⟩, ⟨"SNE_REG", 0xF000, 0x9000⟩]

/-- The widened rows select exactly the aliased forms. -/
theorem isAliasedForm_iff_rows (w : Word) : IsAliasedForm w ↔ ∃ r ∈ aliasedRows, r.selects w = true := by
  constructor
  · rintro (⟨h3, hn | hn⟩ | h3 | h3)
    · exact ⟨⟨"CLS", 0xF0FF, 0x00E0⟩, by decide, selects_digit3NN 0 0xE0 rfl (Fin.ext h3) hn⟩
    · exact ⟨⟨"RET", 0xF0FF, 0x00EE⟩, by decide, selects_digit3NN 0 0xEE rfl (Fin.ext h3) hn⟩
    · exact ⟨⟨"SE_REG", 0xF000, 0x5000⟩, by decide, selects_digit3 5 rfl (Fin.ext h3)⟩
    · exact ⟨⟨"SNE_REG", 0xF000, 0x9000⟩, by decide, selects_digit3 9 rfl (Fin.ext h3)⟩
  · rintro ⟨r, hr, hs⟩
    have h3 : digit w 3 = digit r.value 3 :=
      digit_eq_of_selects ((by decide : ∀ r ∈ aliasedRows, digit r.mask 3 = 15) r hr) hs
    simp only [aliasedRows, List.mem_cons, List.not_mem_nil, or_false] at hr
    rcases hr with rfl | rfl | rfl | rfl
    · exact .inl ⟨congrArg Fin.val h3, .inl (fieldNN_eq_of_selects (by decide) hs)⟩
    · exact .inl ⟨congrArg Fin.val h3, .inr (fieldNN_eq_of_selects (by decide) hs)⟩
    · exact .inr (.inl (congrArg Fin.val h3))
    · exact .inr (.inr (congrArg Fin.val h3))

/-- A row that selects a word still does when it is widened: its mask only loses digits. -/
theorem Row.aliased_selects {r : Row} (hr : r ∈ opcodeRows) {w : Word} (h : r.selects w = true) :
    r.aliased.selects w = true := by
  obtain ⟨hmask, hvalue⟩ := (by decide : ∀ r ∈ opcodeRows,
    r.mask &&& r.aliased.mask = r.aliased.mask ∧ r.value &&& r.aliased.mask = r.aliased.value) r hr
  rw [Row.selects_iff_and] at h ⊢
  rw [← hmask, ← BitVec.and_assoc, h, hvalue]

/-- With DECODE_ALIASES a word is unmapped when it is so by default and has none of the aliased forms (30_encoding.md R80). -/
theorem isUnmapped_true_iff (w : Word) : isUnmapped true w = true ↔ isUnmapped false w = true ∧ ¬ IsAliasedForm w := by
  rw [isUnmapped_true_iff_rows, isUnmapped_false_iff, isAliasedForm_iff_rows]
  constructor
  · refine fun h => ⟨fun r hr hs => h r hr (Row.aliased_selects hr hs), fun ⟨q, hq, hs⟩ => ?_⟩
    obtain ⟨r, hr, rfl⟩ := (by decide : ∀ q ∈ aliasedRows, ∃ r ∈ opcodeRows, r.aliased = q) q hq
    exact h r hr hs
  · rintro ⟨h, halias⟩ r hr hs
    obtain heq | hmem := (by decide : ∀ r ∈ opcodeRows, r.aliased = r ∨ r.aliased ∈ aliasedRows) r hr
    · exact h r hr (heq ▸ hs)
    · exact halias ⟨_, hmem, hs⟩

/-- A word that no row selects, under either reading, decodes to UNMAPPED (30_encoding.md R78). -/
theorem decode_of_isUnmapped {aliases : Bool} {w : Word} (h : isUnmapped aliases w = true) :
    decode aliases w = .unmapped w := by
  cases aliases with
  | false => exact decode_eq_unmapped h
  | true =>
    obtain ⟨hu, halias⟩ := (isUnmapped_true_iff w).1 h
    rw [decode_true_eq_decode_false halias, decode_eq_unmapped hu]

/-- Settles O1: the decoder dispatches on the digits the encoder of the instruction's format has put down and reads the fields
back; the word of UNMAPPED is one that no row selects. -/
theorem decodeOfEncodeIsIdentity : Obligations.DecodeOfEncodeIsIdentity := by
  intro aliases i hwf
  cases i
  case cls | ret => cases aliases <;> rfl
  case jp | call | ldI | jpV0 => simp [encode, decode]
  case seImm | sneImm | ldImm | addImm | rnd => simp [encode, decode]
  case seReg | sneReg | drw => simp [encode, decode]
  case ldReg | orReg | andReg | xorReg | addReg | sub | shr | subn | shl => simp [encode, decode, decode8]
  case skp | sknp => simp [encode, decode, decodeE]
  case ldVxDt | ldVxK | ldDtVx | ldStVx | addI | ldF | ldB | stRegs | ldRegs => simp [encode, decode, decodeF]
  case unmapped w => exact decode_of_isUnmapped hwf

end Sys2Proof
end

section
/-! PROOF. From a word to its instruction and back (30_encoding.md R73, R78 to R81): the fields as bits, the word encoded from its
own fields, the aliasing reading as a table, and the families of unmapped words. -/

namespace Sys2Proof

/-! ## The fields as bits -/

theorem fieldNN_eq_extract (w : Word) : fieldNN w = w.extractLsb' 0 8 := BitVec.setWidth_eq_extractLsb' (by decide)

theorem fieldNNN_eq_extract (w : Word) : fieldNNN w = w.extractLsb' 0 12 := BitVec.setWidth_eq_extractLsb' (by decide)

/-- Settles O6: each digit is its four bits, and the two wide fields are sums of digits. -/
theorem fieldsAreTheNamedBits : Obligations.FieldsAreTheNamedBits := by
  intro w
  have hNN : (fieldNN w).toNat = 16 * (fieldY w).val + (fieldN w).val := by
    rw [fieldNN_toNat, Nat.mul_comm 16]; rfl
  have hNNN : (fieldNNN w).toNat = 256 * (fieldX w).val + 16 * (fieldY w).val + (fieldN w).val := by
    rw [fieldNNN_toNat, Nat.mul_comm 16, Nat.mul_comm 256]; rfl
  exact ⟨digit_eq_extract w 3, digit_eq_extract w 2, digit_eq_extract w 1, digit_eq_extract w 0, fieldNN_eq_extract w,
    fieldNNN_eq_extract w, hNN, hNNN⟩

/-- Settles O7: nine closed words under the decoder. -/
theorem sampleWordsDecode : Obligations.SampleWordsDecode := by
  unfold Obligations.SampleWordsDecode; decide

/-! ## A word is what its fields encode to -/

theorem encodeNNN_fields {w : Word} {op : Nat} (h3 : (digit w 3).val = op) : encodeNNN op (fieldNNN w) = w := by
  subst h3
  apply BitVec.eq_of_toNat_eq
  rw [encodeNNN_toNat, fieldNNN_toNat, word_toNat_digits w]; omega

theorem encodeXNN_fields {w : Word} {op : Nat} (h3 : (digit w 3).val = op) : encodeXNN op (fieldX w) (fieldNN w) = w := by
  subst h3
  apply BitVec.eq_of_toNat_eq
  rw [encodeXNN_toNat, fieldNN_toNat, word_toNat_digits w, fieldX]; omega

theorem encodeXYN_fields {w : Word} {op n : Nat} (h3 : (digit w 3).val = op) (hn : (fieldN w).val = n) :
    encodeXYN op (fieldX w) (fieldY w) n = w := by
  subst h3 hn
  apply BitVec.eq_of_toNat_eq
  rw [encodeXYN_toNat, word_toNat_digits w, fieldX, fieldY, fieldN]

theorem encodeX_fields {w : Word} {op low : Nat} (h3 : (digit w 3).val = op) (hNN : (fieldNN w).toNat = low) :
    encodeX op (fieldX w) low = w := by
  subst h3 hNN
  apply BitVec.eq_of_toNat_eq
  have hword : (encodeX (digit w 3) (fieldX w) (fieldNN w).toNat).toNat =
      (digit w 3).val * 4096 + (fieldX w).val * 256 + (fieldNN w).toNat :=
    encodeX_toNat _ _ ⟨_, (fieldNN w).isLt⟩
  rw [hword, fieldNN_toNat, word_toNat_digits w, fieldX]; omega

theorem encode_decode0 {w : Word} (h3 : digit w 3 = 0) : encode (decode0 false w) = w := by
  unfold decode0
  split
  next hx =>
    have hx : fieldX w = 0 := by simpa using hx
    split
    next hn => exact (word_eq_of_fields (v := 0x00E0) h3 hx hn).symm
    next hn => exact (word_eq_of_fields (v := 0x00EE) h3 hx hn).symm
    next => rfl
  next => rfl

theorem encode_decode8 {w : Word} (h3 : (digit w 3).val = 8) : encode (decode8 w) = w := by
  unfold decode8
  split
  case h_10 => rfl
  all_goals exact encodeXYN_fields h3 ‹_›

theorem encode_decodeE {w : Word} (h3 : (digit w 3).val = 14) : encode (decodeE w) = w := by
  unfold decodeE
  split
  case h_3 => rfl
  all_goals exact encodeX_fields h3 ‹_›

theorem encode_decodeF {w : Word} (h3 : (digit w 3).val = 15) : encode (decodeF w) = w := by
  unfold decodeF
  split
  case h_10 => rfl
  all_goals exact encodeX_fields h3 ‹_›

/-- Families 5 and 9 put a last digit 0 down, which is the word's own or the word is unmapped. -/
theorem encode_ite_fieldN {w : Word} {i : Instr} (hi : fieldN w = 0 → encode i = w) :
    encode (if false || fieldN w == 0 then i else .unmapped w) = w := by
  split
  next h => exact hi (by simpa using h)
  next => rfl

/-- No bit of a word is lost by decoding it (30_encoding.md R81). -/
theorem encode_decode (w : Word) : encode (decode false w) = w := by
  unfold decode
  split
  case h_1 h3 => exact encode_decode0 (Fin.ext h3)
  case h_2 | h_3 | h_11 | h_12 => exact encodeNNN_fields ‹_›
  case h_4 | h_5 | h_7 | h_8 | h_13 => exact encodeXNN_fields ‹_›
  case h_6 | h_10 => exact encode_ite_fieldN fun hn => encodeXYN_fields ‹_› (congrArg Fin.val hn)
  case h_9 h3 => exact encode_decode8 h3
  case h_14 h3 => exact encodeXYN_fields h3 rfl
  case h_15 h3 => exact encode_decodeE h3
  case h_16 =>
    have hlt := (digit w 3).isLt
    exact encode_decodeF (by grind)

/-! ## What a word decodes to is well formed -/

/-- An instruction with the name of a row is well formed: the one check is on UNMAPPED (30_encoding.md R74). -/
theorem Instr.wf_of_row_name {i : Instr} {r : Row} (hr : r ∈ opcodeRows) (hn : i.mnemonic = r.mnemonic) (aliases : Bool) :
    i.wf aliases = true := by
  cases i
  case unmapped w => exact absurd hn.symm ((by decide : ∀ r ∈ opcodeRows, r.mnemonic ≠ "UNMAPPED") r hr)
  all_goals rfl

theorem decode_false_wf (w : Word) : (decode false w).wf false = true := by
  obtain ⟨r, hr, -, hn⟩ | ⟨hu, hd⟩ := decode_inRow w
  · exact Instr.wf_of_row_name hr hn false
  · rw [hd]; exact hu

/-- The words that decode to UNMAPPED are those that no row selects (30_encoding.md R78). -/
theorem decode_false_eq_unmapped_iff (w : Word) : decode false w = .unmapped w ↔ isUnmapped false w = true := by
  refine ⟨fun h => ?_, decode_eq_unmapped⟩
  have hwf := decode_false_wf w
  rwa [h] at hwf

/-! ## The aliasing reading as a table -/

theorem digit3_eq_div (w : Word) : (digit w 3).val = w.toNat / 4096 := by
  have := w.isLt
  rw [digit_val]; omega

theorem fieldNN_eq_mod (w : Word) : (fieldNN w).toNat = w.toNat % 256 := BitVec.toNat_setWidth 8 w

theorem fieldN_eq_mod (w : Word) : (fieldN w).val = w.toNat % 16 := by
  rw [fieldN, digit_val, Nat.pow_zero, Nat.div_one]

theorem decode_true_eq_cls {w : Word} (h : (digit w 3).val = 0 ∧ (fieldNN w).toNat = 0xE0) : decode true w = .cls := by
  simp [decode, decode0, h]

theorem decode_true_eq_ret {w : Word} (h : (digit w 3).val = 0 ∧ (fieldNN w).toNat = 0xEE) : decode true w = .ret := by
  simp [decode, decode0, h]

theorem decode_true_eq_seReg {w : Word} (h : (digit w 3).val = 5) : decode true w = .seReg (fieldX w) (fieldY w) := by
  simp [decode, h]

theorem decode_true_eq_sneReg {w : Word} (h : (digit w 3).val = 9) : decode true w = .sneReg (fieldX w) (fieldY w) := by
  simp [decode, h]

/-- Settles O4: each aliased form by the branch of the decoder it falls into; outside them both readings agree
(`decode_true_eq_decode_false`). -/
theorem aliasesWidenFourInstructions : Obligations.AliasesWidenFourInstructions := by
  intro w
  rw [← digit3_eq_div, ← fieldNN_eq_mod]
  split
  next h => exact decode_true_eq_cls h
  next hcls =>
  split
  next h => exact decode_true_eq_ret h
  next hret =>
  split
  next h => exact decode_true_eq_seReg h
  next h5 =>
  split
  next h => exact decode_true_eq_sneReg h
  next h9 =>
  refine decode_true_eq_decode_false ?_
  rintro (⟨h3, hE0 | hEE⟩ | h3 | h3)
  · exact hcls ⟨h3, hE0⟩
  · exact hret ⟨h3, hEE⟩
  · exact h5 h3
  · exact h9 h3

/-- Settles O2: by default a word decodes into its row and `encode_decode` gives it back; with DECODE_ALIASES an aliased form is
one of the four instructions, and any other word decodes as by default and stays unmapped if it was. -/
theorem everyWordIsOneInstruction : Obligations.EveryWordIsOneInstruction := by
  refine fun w => ⟨fun aliases => ?_, encode_decode w⟩
  cases aliases with
  | false => exact decode_false_wf w
  | true =>
    by_cases halias : IsAliasedForm w
    · obtain ⟨h3, hn | hn⟩ | h3 | h3 := halias
      · rw [decode_true_eq_cls ⟨h3, hn⟩]; rfl
      · rw [decode_true_eq_ret ⟨h3, hn⟩]; rfl
      · rw [decode_true_eq_seReg h3]; rfl
      · rw [decode_true_eq_sneReg h3]; rfl
    · rw [decode_true_eq_decode_false halias]
      obtain ⟨r, hr, -, hn⟩ | ⟨hu, hd⟩ := decode_inRow w
      · exact Instr.wf_of_row_name hr hn true
      · rw [hd]; exact (isUnmapped_true_iff w).2 ⟨hu, halias⟩

/-! ## The families of unmapped words (30_encoding.md R79) -/

theorem decode0_eq_unmapped_iff {w : Word} (h3 : digit w 3 = 0) :
    decode0 false w = .unmapped w ↔ w.toNat ≠ 0x00E0 ∧ w.toNat ≠ 0x00EE := by
  have hw := word_toNat_digits w
  have hNN := fieldNN_toNat w
  have h3 : (digit w 3).val = 0 := congrArg Fin.val h3
  unfold decode0
  split
  next hx =>
    have hx : (digit w 2).val = 0 := congrArg Fin.val (show fieldX w = 0 by simpa using hx)
    split
    next => exact iff_of_false nofun (by omega)
    next => exact iff_of_false nofun (by omega)
    next hE0 hEE =>
      have : (fieldNN w).toNat ≠ 0xE0 := hE0
      have : (fieldNN w).toNat ≠ 0xEE := hEE
      exact iff_of_true rfl (by omega)
  next hx =>
    have hx : (digit w 2).val ≠ 0 := fun h => hx (by simpa using Fin.ext (a := fieldX w) (b := 0) h)
    exact iff_of_true rfl (by omega)

theorem decode8_eq_unmapped_iff (w : Word) :
    decode8 w = .unmapped w ↔ (fieldN w).val ∈ [0x8, 0x9, 0xA, 0xB, 0xC, 0xD, 0xF] := by
  have hlt := (fieldN w).isLt
  unfold decode8
  split
  case h_10 =>
    refine iff_of_true rfl ?_
    simp only [List.mem_cons, List.not_mem_nil, or_false]
    grind
  all_goals exact iff_of_false nofun (by simp [*])

theorem decodeE_eq_unmapped_iff (w : Word) :
    decodeE w = .unmapped w ↔ (fieldNN w).toNat ≠ 0x9E ∧ (fieldNN w).toNat ≠ 0xA1 := by
  unfold decodeE
  split
  case h_3 h9E hA1 => exact iff_of_true rfl ⟨h9E, hA1⟩
  all_goals exact iff_of_false nofun (by simp [*])

theorem decodeF_eq_unmapped_iff (w : Word) :
    decodeF w = .unmapped w ↔ (fieldNN w).toNat ∉ [0x07, 0x0A, 0x15, 0x18, 0x1E, 0x29, 0x33, 0x55, 0x65] := by
  unfold decodeF
  split
  case h_10 => exact iff_of_true rfl (by simp_all)
  all_goals exact iff_of_false nofun (by simp [*])

/-- Families 5 and 9 are unmapped where the last digit is not 0. -/
theorem ite_fieldN_eq_unmapped_iff {w : Word} {i : Instr} (hi : i ≠ .unmapped w) :
    (if false || fieldN w == 0 then i else .unmapped w) = .unmapped w ↔ (fieldN w).val ≠ 0 := by
  split
  next h => exact iff_of_false hi (not_not.2 (congrArg Fin.val (show fieldN w = 0 by simpa using h)))
  next h => exact iff_of_true rfl fun h0 => h (beq_iff_eq.2 (Fin.ext h0))

/-- Settles O5: the first digit picks the family, and each family's decoder says which of its words are unmapped. -/
theorem unmappedWordsAreTheSixFamilies : Obligations.UnmappedWordsAreTheSixFamilies := by
  intro w
  rw [← digit3_eq_div, ← fieldNN_eq_mod, ← fieldN_eq_mod]
  unfold decode
  split
  case h_1 h3 => simp [h3, decode0_eq_unmapped_iff (Fin.ext h3)]
  case h_6 h3 => rw [ite_fieldN_eq_unmapped_iff (i := .seReg _ _) nofun]; simp [h3]
  case h_9 h3 => simp [h3, decode8_eq_unmapped_iff]
  case h_10 h3 => rw [ite_fieldN_eq_unmapped_iff (i := .sneReg _ _) nofun]; simp [h3]
  case h_15 h3 => simp [h3, decodeE_eq_unmapped_iff]
  case h_16 =>
    have hlt := (digit w 3).isLt
    have h3 : (digit w 3).val = 15 := by grind
    simp [h3, decodeF_eq_unmapped_iff]
  all_goals simp [*]

end Sys2Proof
end

section
/-! PROOF. What an instruction can do, said once (`Effect`), and what follows for each piece of state: who may change it, and that
a fatal error is precise (10_state.md section 9; 60_exceptions.md section 3). -/

namespace Sys2Proof.Machine

/-! ## The effects -/

/-- Which fatal error an instruction raises in a state, under which condition (60_exceptions.md R202 to R204). -/
inductive Raises (s : State) : Instr → ErrorKind → Prop
  | call (nnn : Addr) (h : s.sp = 16) : Raises s (.call nnn) .stackOverflow
  | ret (h : s.sp = 0) : Raises s .ret .stackUnderflow
  | drw (x y : Reg) (n : Fin 16) (h : 0x1000 < s.i.toNat + rowsDrawn s y n) : Raises s (.drw x y n) .memOutOfRange
  | ldB (x : Reg) (h : 0x1000 < s.i.toNat + 3) : Raises s (.ldB x) .memOutOfRange
  | stRegs (x : Reg) (h : 0x1000 < s.i.toNat + (x.val + 1)) : Raises s (.stRegs x) .memOutOfRange
  | ldRegs (x : Reg) (h : 0x1000 < s.i.toNat + (x.val + 1)) : Raises s (.ldRegs x) .memOutOfRange
  | skp (x : Reg) (h : 15 < (s.reg x).toNat) : Raises s (.skp x) .badKeyIndex
  | sknp (x : Reg) (h : 15 < (s.reg x).toNat) : Raises s (.sknp x) .badKeyIndex

/-- The register an instruction writes when that is all it does (41_alu.md R120 to R125; 44_keypad_timers.md R182). -/
def plainDestination : Instr → Option Reg
  | .ldImm x _ | .addImm x _ | .ldReg x _ | .orReg x _ | .andReg x _ | .xorReg x _ | .ldVxDt x => some x
  | _ => none

/-- The register an instruction writes together with the flag (41_alu.md R126 to R130). -/
def flagDestination : Instr → Option Reg
  | .addReg x _ | .sub x _ | .shr x _ | .subn x _ | .shl x _ => some x
  | _ => none

/-- Where an instruction jumps (40_control_flow.md R101, R107). -/
def jumpTarget (s : State) : Instr → Option Word
  | .jp nnn => some (addrOperand nnn)
  | .jpV0 nnn => some (indexedTarget s nnn)
  | _ => none

/-- What an instruction writes to `I` (42_index_memory.md R150 to R152). -/
def indexWritten (s : State) : Instr → Option Word
  | .ldI nnn => some (addrOperand nnn)
  | .addI x => some (s.i + byteOperand (s.reg x))
  | .ldF x => some (glyphAddr (s.reg x))
  | _ => none

/-- The bytes an instruction stores from `I` on (42_index_memory.md R153, R154). -/
def bytesStored (s : State) : Instr → Option (List Byte)
  | .ldB x => some (decimalDigits (s.reg x))
  | .stRegs x => some (regsUpTo s x)
  | _ => none

/-- What the execute phase of an instruction can answer in a state. -/
inductive Effect (s : State) : Instr → State → Prop
  | raises {i : Instr} {kind : ErrorKind} (h : Raises s i kind) : Effect s i (s.raiseExec kind i)
  | clears : Effect s .cls (s.showGrid (blankGrid s.cfg))
  | draws (x y : Reg) (n : Fin 16) :
    Effect s (.drw x y n) ((s.showGrid (drawnCanvas x y n s).1).setReg VF (flagByte (drawnCanvas x y n s).2))
  | returns (h : 0 < s.sp.val) :
    Effect s .ret { s with pc := s.stack.get ⟨s.sp.val - 1, by omega⟩, sp := ⟨s.sp.val - 1, by omega⟩ }
  | calls (nnn : Addr) (h : s.sp.val < 16) :
    Effect s (.call nnn) { s with
      pc := addrOperand nnn, stack := s.stack.set s.sp.val s.pc h, sp := ⟨s.sp.val + 1, by omega⟩ }
  | jumps {i : Instr} {w : Word} (h : jumpTarget s i = some w) : Effect s i (s.setPc w)
  | skips {i : Instr} (taken : Bool) : Effect s i (s.setPc (if taken then s.pc + 2 else s.pc))
  | writesReg {i : Instr} {x : Reg} (b : Byte) (h : plainDestination i = some x) : Effect s i (s.setReg x b)
  | writesFlag {i : Instr} {x : Reg} (f b : Byte) (h : flagDestination i = some x) : Effect s i (s.setFlagThenReg x f b)
  | random (x : Reg) (nn b : Byte) : Effect s (.rnd x nn) (s.setReg x b).countDraw
  | writesIndex {i : Instr} {w : Word} (h : indexWritten s i = some w) : Effect s i (s.setI w)
  | stores {i : Instr} {bs : List Byte} (h : bytesStored s i = some bs) (hr : s.i.toNat + bs.length ≤ 0x1000) :
    Effect s i (s.setMem (s.mem.store s.i.toNat bs))
  | loads (x : Reg) {bs : List Byte} (h : bs.length = x.val + 1) :
    Effect s (.ldRegs x) { s with v := (s.setRegsFrom 0 bs).v }
  | waits (x : Reg) : Effect s (.ldVxK x) s.rewindPc
  | latches (x : Reg) (k : Key) : Effect s (.ldVxK x) (s.setWait (.keyLatched k)).rewindPc
  | delivers (x : Reg) (b : Byte) : Effect s (.ldVxK x) ((s.setReg x b).setWait .idle)
  | setsDelay (x : Reg) : Effect s (.ldDtVx x) (s.setDt (s.reg x))
  | setsSound (x : Reg) : Effect s (.ldStVx x) (s.setSt (s.reg x))
  | reports (w : Word) : Effect s (.unmapped w) (s.raiseDiag w)

/-- A skip is a write of `PC`, to the next instruction or past it. -/
theorem Effect.of_skipIf {s : State} {i : Instr} {c : Bool} (h : exec i s = .next (s.skipIf c)) :
    ∃ t, exec i s = .next t ∧ Effect s i t :=
  ⟨_, h.trans (by rw [State.skipIf_eq]), .skips c⟩

/-- Every meaning answers a state that is one of its effects. -/
theorem exec_answers_effect (i : Instr) (s : State) : ∃ t, exec i s = .next t ∧ Effect s i t := by
  cases i
  case cls => exact ⟨_, rfl, .clears⟩
  case ret =>
    obtain ⟨h0, h⟩ | ⟨hpos, h⟩ := execRet_cases s
    · exact ⟨_, h, .raises (.ret h0)⟩
    · exact ⟨_, h, .returns hpos⟩
  case call nnn =>
    obtain ⟨h16, h⟩ | ⟨hlt, h⟩ := execCall_cases nnn s
    · exact ⟨_, h, .raises (.call nnn h16)⟩
    · exact ⟨_, h, .calls nnn hlt⟩
  case jp | jpV0 => exact ⟨_, rfl, .jumps rfl⟩
  case seImm | sneImm | seReg | sneReg => exact Effect.of_skipIf rfl
  case ldImm | addImm | ldReg | orReg | andReg | xorReg | ldVxDt => exact ⟨_, rfl, .writesReg _ rfl⟩
  case addReg | sub | shr | subn | shl => exact ⟨_, rfl, .writesFlag _ _ rfl⟩
  case rnd x nn => exact ⟨_, rfl, .random x nn _⟩
  case drw x y n =>
    obtain ⟨_, hrange, h⟩ | ⟨_, h⟩ := execDrw_cases x y n s
    · exact ⟨_, h, .raises (.drw x y n hrange)⟩
    · exact ⟨_, h, .draws x y n⟩
  case skp x =>
    obtain ⟨hkey, h⟩ | ⟨k, _, h⟩ := execSkp_cases x s
    · exact ⟨_, h, .raises (.skp x hkey)⟩
    · exact ⟨_, h, .skips (s.keyHeld k)⟩
  case sknp x =>
    obtain ⟨hkey, h⟩ | ⟨k, _, h⟩ := execSknp_cases x s
    · exact ⟨_, h, .raises (.sknp x hkey)⟩
    · exact ⟨_, h, .skips (!s.keyHeld k)⟩
  case ldVxK x =>
    obtain ⟨_, _, h⟩ | ⟨k, _, _, _, h⟩ | ⟨_, _, _, h⟩ | ⟨_, _, _, h⟩ := execLdVxK_cases x s
    · exact ⟨_, h, .waits x⟩
    · exact ⟨_, h, .latches x k⟩
    · exact ⟨_, h, .waits x⟩
    · exact ⟨_, h, .delivers x _⟩
  case ldDtVx x => exact ⟨_, rfl, .setsDelay x⟩
  case ldStVx x => exact ⟨_, rfl, .setsSound x⟩
  case ldI | addI | ldF => exact ⟨_, rfl, .writesIndex rfl⟩
  case ldB x =>
    obtain ⟨hrange, h⟩ | ⟨hrange, h⟩ := execLdB_cases x s
    · exact ⟨_, h, .raises (.ldB x hrange)⟩
    · exact ⟨_, h, .stores rfl hrange⟩
  case stRegs x =>
    obtain ⟨hrange, h⟩ | ⟨hrange, h⟩ := execStRegs_cases x s
    · exact ⟨_, h, .raises (.stRegs x hrange)⟩
    · exact ⟨_, h, .stores rfl (by rwa [regsUpTo_length])⟩
  case ldRegs x =>
    obtain ⟨hrange, h⟩ | ⟨_, h⟩ := execLdRegs_cases x s
    · exact ⟨_, h, .raises (.ldRegs x hrange)⟩
    · exact ⟨_, h.trans (congrArg Host.Outcome.next (State.setRegsFrom_frame ..)),
        .loads x (by rw [List.length_map, List.length_range])⟩
  case unmapped w => exact ⟨_, rfl, .reports w⟩

theorem exec_effect {i : Instr} {s t : State} (h : exec i s = .next t) : Effect s i t := by
  obtain ⟨u, hu, he⟩ := exec_answers_effect i s
  obtain rfl : u = t := Host.Outcome.next.inj (hu.symm.trans h)
  exact he

/-! ## Which instructions have an effect -/

theorem bytesStored_eq_some {s : State} {i : Instr} {bs : List Byte} (h : bytesStored s i = some bs) :
    (∃ x, i = .ldB x ∧ bs.length = 3) ∨ ∃ x, i = .stRegs x ∧ bs.length = x.val + 1 := by
  cases i <;> cases h
  case ldB x => exact .inl ⟨x, rfl, decimalDigits_length _⟩
  case stRegs x => exact .inr ⟨x, rfl, regsUpTo_length s x⟩

theorem indexWritten_eq_some {s : State} {i : Instr} {w : Word} (h : indexWritten s i = some w) :
    (∃ nnn, i = .ldI nnn) ∨ ∃ x, i = .addI x ∨ i = .ldF x := by
  cases i <;> cases h
  case ldI nnn => exact .inl ⟨nnn, rfl⟩
  case addI x => exact .inr ⟨x, .inl rfl⟩
  case ldF x => exact .inr ⟨x, .inr rfl⟩

/-! ## Who may change what -/

/-- Settles O48: only the effects of a call and a return touch the two fields. -/
theorem onlyCallAndReturnTouchTheStack : Obligations.OnlyCallAndReturnTouchTheStack := by
  intro i s t h
  cases exec_effect h
  case returns => exact ⟨fun _ => .inl rfl, absurd rfl⟩
  case calls nnn _ => exact ⟨fun _ => .inr ⟨nnn, rfl⟩, fun _ => ⟨nnn, rfl⟩⟩
  all_goals exact ⟨absurd rfl, absurd rfl⟩

/-- Memory stays as it is, or has the instruction's bytes stored from `I` on (20_memory.md R56). -/
theorem Effect.mem_eq {s t : State} {i : Instr} (h : Effect s i t) :
    t.mem = s.mem ∨ ∃ bs, bytesStored s i = some bs ∧ t.mem = s.mem.store s.i.toNat bs := by
  cases h
  case stores bs _ hbytes => exact .inr ⟨bs, hbytes, rfl⟩
  all_goals exact .inl rfl

/-- Settles O49: where memory changed, bytes were stored, and a store changes the bytes from `I` on, as many as it stores. -/
theorem onlyStoresChangeMemory : Obligations.OnlyStoresChangeMemory := by
  intro i s t a h hne
  obtain hmem | ⟨bs, hbytes, hmem⟩ := (exec_effect h).mem_eq
  · exact absurd (congrArg (Memory.read · a) hmem) hne
  · have hrange : s.i.toNat ≤ a ∧ a < s.i.toNat + bs.length := by
      by_contra hout
      exact hne (by rw [hmem, Memory.read_store, if_neg hout])
    obtain ⟨x, rfl, hlen⟩ | ⟨x, rfl, hlen⟩ := bytesStored_eq_some hbytes
    · exact ⟨x, .inl ⟨rfl, by omega, by omega⟩⟩
    · exact ⟨x, .inr ⟨rfl, by omega, by omega⟩⟩

/-- Settles O50: each of the four fields has the effects of its own writers alone, and no effect names the keys or the
configuration. -/
theorem timersIndexAndWaitHaveTheirWriters : Obligations.TimersIndexAndWaitHaveTheirWriters := by
  intro i s t h
  cases exec_effect h
  case setsDelay x => exact ⟨fun _ => ⟨x, rfl⟩, absurd rfl, absurd rfl, absurd rfl, rfl, rfl⟩
  case setsSound x => exact ⟨absurd rfl, fun _ => ⟨x, rfl⟩, absurd rfl, absurd rfl, rfl, rfl⟩
  case writesIndex hi => exact ⟨absurd rfl, absurd rfl, fun _ => indexWritten_eq_some hi, absurd rfl, rfl, rfl⟩
  case latches x _ => exact ⟨absurd rfl, absurd rfl, absurd rfl, fun _ => ⟨x, rfl⟩, rfl, rfl⟩
  case delivers x _ => exact ⟨absurd rfl, absurd rfl, absurd rfl, fun _ => ⟨x, rfl⟩, rfl, rfl⟩
  all_goals exact ⟨absurd rfl, absurd rfl, absurd rfl, absurd rfl, rfl, rfl⟩

/-- A write of one register changes VF only when VF is that register (10_state.md R21). -/
theorem eq_VF_of_setReg_changes {s : State} {x : Reg} {b : Byte} (hne : (s.setReg x b).reg VF ≠ s.reg VF) : x = VF :=
  by_contra fun hx => hne (s.reg_setReg_ne b (Ne.symm hx))

/-- Settles O30: a register is written by the flag writers, the draw, the plain writes and the loads of registers, and a plain
write changes VF only when VF is its destination. -/
theorem onlyFlagWritersChangeVF : Obligations.OnlyFlagWritersChangeVF := by
  intro i s t h hne
  cases exec_effect h
  case draws x y n => exact .inl ⟨x, y, n, by simp⟩
  case writesFlag x f b hi =>
    cases i <;> cases hi
    case addReg y | sub y | shr y | subn y | shl y => exact .inl ⟨x, y, 0, by simp⟩
  case random x nn b => obtain rfl := eq_VF_of_setReg_changes hne; exact .inr (.inl ⟨nn, by simp⟩)
  case writesReg x b hi =>
    obtain rfl := eq_VF_of_setReg_changes hne
    cases i <;> cases hi
    case ldImm nn | addImm nn => exact .inr (.inl ⟨nn, by simp⟩)
    case ldReg y | orReg y | andReg y | xorReg y => exact .inr (.inr (.inl ⟨y, by simp⟩))
    case ldVxDt => exact .inr (.inr (.inr (.inl rfl)))
  case delivers x b => obtain rfl := eq_VF_of_setReg_changes hne; exact .inr (.inr (.inr (.inr (.inl rfl))))
  case loads x bs hlen =>
    obtain rfl : x = VF := by
      by_contra hx
      refine hne ((State.reg_setRegsFrom ..).trans (if_neg fun hin => hx (Fin.ext ?_)))
      have : (VF : Reg).val = 15 := rfl
      omega
    exact .inr (.inr (.inr (.inr (.inr rfl))))
  all_goals exact absurd rfl hne

/-- Settles O51: of the effects only a raised error names `status`; what it raises and when is `Raises`. -/
theorem fatalErrorsArePrecise : Obligations.FatalErrorsArePrecise := by
  intro i s t h hne
  cases exec_effect h
  case raises kind hraises =>
    refine ⟨kind, s.raiseExec_eq kind i, ?_⟩
    clear h hne
    cases hraises
    case call nnn h => exact .inl ⟨rfl, h, nnn, rfl⟩
    case ret h => exact .inr (.inl ⟨rfl, h, rfl⟩)
    case drw x y n h =>
      have hrows : rowsDrawn s y n ≤ n.val := Nat.min_le_left ..
      exact .inr (.inr (.inl ⟨rfl, by omega, x, y, n, by simp⟩))
    case ldB x h | stRegs x h | ldRegs x h => exact .inr (.inr (.inl ⟨rfl, by omega, x, 0, 0, by simp⟩))
    case skp x h | sknp x h => exact .inr (.inr (.inr ⟨rfl, x, h, by simp⟩))
  all_goals exact absurd rfl hne

end Sys2Proof.Machine
end

section
/-! PROOF. The step and its events (30_encoding.md R71; 60_exceptions.md R206, R211 to R218): what each event next in the schedule
does, that a halted core and a finished program stay, and that the schedule of a frame runs the frame. -/

namespace Sys2Proof.Machine

/-! ## The next event -/

theorem step_of_head {s : State} {e : Event} (h : s.schedule.head? = some e) : step s = runEvent e s.dropEvent := by
  rw [step, State.nextEvent, List.headD_eq_head?_getD, h, Option.getD_some]

/-- With nothing scheduled or a cycle next, a step is a cycle. -/
theorem step_of_cycle_next {s : State} (h : s.schedule = [] ∨ s.schedule.head? = some .step) : step s = cycle s.dropEvent := by
  obtain h | h := h
  · rw [step, State.nextEvent, h]; rfl
  · exact step_of_head h

theorem cycle_of_halted {s : State} {err : FatalError} (h : s.status = .halted err) : cycle s = .next s.clearPulses := by
  simp only [cycle, h]

theorem cycle_of_fetch_error {s : State} (h : s.status = .running) (hpc : 4094 < s.pc.toNat) :
    cycle s = .next (s.clearPulses.raiseFatal .fetchOutOfRange none s.pc) := by
  simp only [cycle, h, fetchWord, Memory.readWord_of_gt _ hpc]

theorem cycle_of_fetched {s : State} {w : Word} (h : s.status = .running) (hw : fetchWord s = some w) :
    cycle s = exec (decode s.cfg.decodeAliases w) s.afterFetch := by
  simp only [cycle, h, hw]

/-- Settles O10: the step is a cycle, and the cycle runs the word at `PC`. -/
theorem stepRunsTheDecodedInstruction : Obligations.StepRunsTheDecodedInstruction := fun s hrun hpc hnext =>
  (step_of_cycle_next hnext).trans (cycle_of_fetched (s := s.dropEvent) hrun (Memory.readWord_of_le _ hpc))

/-- Settles O11: the step is a cycle, and the cycle raises the fetch error. -/
theorem fetchPastLastWordIsFatal : Obligations.FetchPastLastWordIsFatal := fun s hrun hpc hnext =>
  (step_of_cycle_next hnext).trans (cycle_of_fetch_error (s := s.dropEvent) hrun hpc)

/-- Every cycle answers. -/
theorem cycle_next (s : State) : ∃ t, cycle s = .next t := by
  obtain ⟨t, ht, -⟩ := cycle_schedule s []
  exact ⟨t, ht⟩

/-- Settles O13: a cycle answers since every meaning does, and the other events are updates. -/
theorem everyStepAnswers : Obligations.EveryStepAnswers := by
  intro s
  obtain ⟨_, h⟩ | ⟨_, h⟩ | ⟨_, _, _, h⟩ | ⟨_, h⟩ := step_cases s
  · rw [h]; exact cycle_next _
  · exact ⟨_, h⟩
  · exact ⟨_, h⟩
  · exact ⟨_, h⟩

/-- Settles O14: each event is next, so it is what the step runs; the flag written is the one of `k`. -/
theorem scheduledHostEventsHappen : Obligations.ScheduledHostEventsHappen := by
  intro s rest k held
  constructor
  · intro hs
    have hdrop : s.dropEvent = { s with schedule := rest } := by rw [State.dropEvent, hs]; rfl
    refine ⟨s.dropEvent.setKey k held, step_of_head (by rw [hs]; rfl), ?_, fun j hj => ?_, ?_⟩
    · rw [State.keyHeld_setKey, if_pos rfl]
    · rw [State.keyHeld_setKey, if_neg hj]; rfl
    · rw [hdrop]; rfl
  · intro hs
    rw [step_of_head (e := .ackDirty) (by rw [hs]; rfl), State.dropEvent, hs]; rfl

/-! ## Halted and finished -/

/-- Settles O12: in a halted core a cycle only takes the pulses down, and no other event writes the fields named. -/
theorem haltedCoreStaysHalted : Obligations.HaltedCoreStaysHalted := by
  intro s err hs
  refine ⟨cycle_of_halted hs, fun htick => step_of_head htick, fun t ht => ?_⟩
  obtain ⟨_, h⟩ | ⟨_, h⟩ | ⟨_, _, _, h⟩ | ⟨_, h⟩ := step_cases s
  case inl =>
    rw [h, cycle_of_halted (s := s.dropEvent) hs] at ht
    cases ht
    exact ⟨hs, rfl, rfl, rfl, rfl, rfl, rfl, rfl, rfl⟩
  all_goals
    rw [h] at ht
    cases ht
    exact ⟨hs, rfl, rfl, rfl, rfl, rfl, rfl, rfl, rfl⟩

/-- What a finished state is: the core runs and a jump to `PC` lies at `PC` (70_reset_and_hazards.md R247). -/
theorem State.finished_iff (s : State) : s.finished = true ↔
    s.status = .running ∧ ∃ w, fetchWord s = some w ∧ digit w 3 = 1 ∧ (fieldNNN w).toNat = s.pc.toNat := by
  simp [State.finished, State.running, Option.any_eq_true]

theorem decode_jp {w : Word} (h : digit w 3 = 1) (aliases : Bool) : decode aliases w = .jp (fieldNNN w) := by
  simp [decode, h]

/-- Settles O57: the cycle runs the jump, whose target is the `PC` the cycle began with. -/
theorem finishedProgramStaysFinished : Obligations.FinishedProgramStaysFinished := by
  intro s hs
  obtain ⟨hrun, w, hw, hdigit, htarget⟩ := s.finished_iff.1 hs
  have hpc : addrOperand (fieldNNN w) = s.pc := BitVec.eq_of_toNat_eq ((addrOperand_toNat _).trans htarget)
  have hjump : exec (.jp (fieldNNN w)) s.afterFetch = .next (s.afterFetch.setPc s.pc) := by rw [← hpc]; rfl
  rw [cycle_of_fetched hrun hw, decode_jp hdigit, hjump]; rfl

/-! ## The frame and its schedule -/

theorem run_succ {s t : State} (h : step s = .next t) (n : Nat) :
    Host.Core.run Sys2Proof.core (n + 1) s = Host.Core.run Sys2Proof.core n t := by
  simp only [Host.Core.run, show Sys2Proof.core.step s = .next t from h]

/-- Some keys of a snapshot set, one after another. -/
def State.setSomeKeys (s : State) (keys : Vector Bool 16) (ks : List Key) : State :=
  ks.foldl (fun t k => t.setKey k (keys.get k)) s

/-- Keys scheduled are set, one in each step. -/
theorem run_keys (keys : Vector Bool 16) (ks : List Key) (s : State) (l : List Event) (n : Nat) :
    Host.Core.run Sys2Proof.core (n + ks.length)
        { s with schedule := ks.map (fun k => .setKey k (keys.get k)) ++ l } =
      Host.Core.run Sys2Proof.core n ({ s with schedule := l }.setSomeKeys keys ks) := by
  induction ks generalizing s with
  | nil => rfl
  | cons k ks ih =>
    rw [List.length_cons, ← Nat.add_assoc, run_succ (step_of_head (e := .setKey k (keys.get k)) rfl)]
    exact ih (s.setKey k (keys.get k))

/-- A number of cycles answers, whatever is scheduled, and as many scheduled cycles run to the same state. -/
theorem runCycles_and_run (n : Nat) (s : State) : ∃ t : State, ∀ l : List Event,
    runCycles n { s with schedule := l } = .next { t with schedule := l } ∧
    ∀ m, Host.Core.run Sys2Proof.core (m + n) { s with schedule := List.replicate n .step ++ l } =
      Host.Core.run Sys2Proof.core m { t with schedule := l } := by
  induction n generalizing s with
  | zero => exact ⟨s, fun l => ⟨rfl, fun m => rfl⟩⟩
  | succ n ih =>
    obtain ⟨u, hu⟩ := cycle_next s
    have hcycle (l : List Event) : cycle { s with schedule := l } = .next { u with schedule := l } := by
      obtain ⟨u', hu', h⟩ := cycle_schedule s l
      obtain rfl := Host.Outcome.next.inj (hu.symm.trans hu')
      exact h
    obtain ⟨t, ht⟩ := ih u
    refine ⟨t, fun l => ⟨?_, fun m => ?_⟩⟩
    · rw [runCycles, hcycle l]
      exact (ht l).1
    · have hstep : step { s with schedule := List.replicate (n + 1) .step ++ l } =
          .next { u with schedule := List.replicate n .step ++ l } :=
        (step_of_head (e := .step) rfl).trans (hcycle _)
      rw [← Nat.add_assoc, run_succ hstep]
      exact (ht l).2 m

theorem State.setKeys_eq_setSomeKeys (s : State) (keys : Vector Bool 16) :
    s.setKeys keys = s.setSomeKeys keys (List.finRange 16) := rfl

theorem setSomeKeys_schedule (keys : Vector Bool 16) (ks : List Key) (s : State) (l : List Event) :
    { s with schedule := l }.setSomeKeys keys ks = { s.setSomeKeys keys ks with schedule := l } := by
  induction ks generalizing s with
  | nil => rfl
  | cons k ks ih => exact ih (s.setKey k (keys.get k))

/-- Settles O56: the keys are set in the first sixteen steps, the cycles run in the next, and the last step is the tick. -/
theorem frameScheduleRunsTheFrame : Obligations.FrameScheduleRunsTheFrame := by
  intro keys s rest
  obtain ⟨t, ht⟩ := runCycles_and_run (instructionsPerFrame s.cfg) (s.setSomeKeys keys (List.finRange 16))
  refine ⟨{ t with schedule := rest }.tick, ?_, ?_⟩
  · have hkeys : State.setKeys { s with schedule := rest } keys =
        { s.setSomeKeys keys (List.finRange 16) with schedule := rest } := by
      rw [State.setKeys_eq_setSomeKeys, setSomeKeys_schedule]
    rw [frame, hkeys, show State.cfg { s with schedule := rest } = s.cfg from rfl, (ht rest).1]
  · have hlen : 17 + max 1 (s.cfg.ips / 60) = 1 + instructionsPerFrame s.cfg + (List.finRange 16).length := by
      rw [List.length_finRange, instructionsPerFrame]; omega
    rw [hlen, frameEvents, List.append_assoc, List.append_assoc, run_keys, setSomeKeys_schedule, (ht _).2 1]
    exact run_succ (step_of_head (e := .tick) rfl) 0

end Sys2Proof.Machine
end

section
/-! PROOF. The invariant of every reachable state: it holds after a reset, and every event keeps it (10_state.md R35, R36;
70_reset_and_hazards.md R230, R231). -/

namespace Sys2Proof.Machine

/-! ## The invariant, part by part -/

theorem State.gridWf_iff (s : State) : s.gridWf = true ↔ gridShape s.cfg.height s.cfg.width s.disp := by
  simp [State.gridWf, gridShape]

theorem State.stackWf_iff (s : State) : s.stackWf = true ↔ ∀ w ∈ s.stack, w.toNat ≤ 0x1000 := by
  simp only [State.stackWf, List.all_eq_true, Vector.mem_toList_iff, decide_eq_true_eq]

/-- While a key is latched the core runs and an FX0A lies at `PC` (10_state.md R31, R36). -/
def State.LatchedAtKeyWait (s : State) : Prop :=
  ∀ k, s.wait = .keyLatched k → s.status = .running ∧ ∃ w, fetchWord s = some w ∧ isKeyWait w = true

theorem State.waitWf_iff (s : State) : s.waitWf = true ↔ s.LatchedAtKeyWait := by
  unfold State.waitWf State.LatchedAtKeyWait
  cases hw : s.wait with
  | idle => simp
  | keyLatched k => simp [State.running, Option.any_eq_true]

/-- The parts of the invariant (10_state.md R36). -/
structure Invariant (s : State) : Prop where
  cfg_wf : s.cfg.wf = true
  mem_wf : s.mem.wf = true
  shape : gridShape s.cfg.height s.cfg.width s.disp
  stack_le : ∀ w ∈ s.stack, w.toNat ≤ 0x1000
  pc_le : s.pc.toNat ≤ 0x10FE
  latched : s.LatchedAtKeyWait

theorem State.inv_iff (s : State) : s.inv = true ↔ Invariant s := by
  simp only [State.inv, Bool.and_eq_true, State.gridWf_iff, State.stackWf_iff, State.waitWf_iff, State.pcWf, decide_eq_true_eq]
  exact ⟨fun ⟨⟨⟨⟨⟨hcfg, hmem⟩, hshape⟩, hstack⟩, hpc⟩, hlatched⟩ => ⟨hcfg, hmem, hshape, hstack, hpc, hlatched⟩,
    fun h => ⟨⟨⟨⟨⟨h.cfg_wf, h.mem_wf⟩, h.shape⟩, h.stack_le⟩, h.pc_le⟩, h.latched⟩⟩

/-! ## Each effect keeps its part -/

theorem Effect.cfg_eq {s t : State} {i : Instr} (h : Effect s i t) : t.cfg = s.cfg := by cases h <;> rfl

theorem Effect.mem_wf {s t : State} {i : Instr} (h : Effect s i t) (hs : s.mem.wf = true) : t.mem.wf = true := by
  cases h
  case stores bs hrange _ => exact Memory.wf_store bs hs hrange
  all_goals exact hs

theorem Effect.shape {s t : State} {i : Instr} (h : Effect s i t) (hs : gridShape s.cfg.height s.cfg.width s.disp) :
    gridShape t.cfg.height t.cfg.width t.disp := by
  cases h
  case clears => exact gridShape_blank s.cfg
  case draws => exact drawRows_shape _ _ _ _ hs
  all_goals exact hs

/-- A call pushes `PC`, which after a fetch is at most 0x1000 (40_control_flow.md R100). -/
theorem Effect.stack_le {s t : State} {i : Instr} (h : Effect s i t) (hs : ∀ w ∈ s.stack, w.toNat ≤ 0x1000)
    (hpc : s.pc.toNat ≤ 0x1000) : ∀ w ∈ t.stack, w.toNat ≤ 0x1000 := by
  cases h
  case calls nnn hlt =>
    intro w hw
    obtain hw | rfl := Vector.mem_or_eq_of_mem_set (hi := hlt) hw
    · exact hs w hw
    · exact hpc
  all_goals exact hs

theorem jumpTarget_le {s : State} {i : Instr} {w : Word} (h : jumpTarget s i = some w) : w.toNat ≤ 0x10FE := by
  cases i <;> cases h
  case jp nnn =>
    have := nnn.isLt
    rw [addrOperand_toNat]; omega
  case jpV0 nnn =>
    have := nnn.isLt
    have := (s.reg 0).isLt
    rw [indexedTarget, BitVec.toNat_add, addrOperand_toNat, byteOperand_toNat]; omega

/-- After an instruction `PC` is a target, a stack slot, or next to where the fetch left it (10_state.md R22, R36). -/
theorem Effect.pc_le {s t : State} {i : Instr} (h : Effect s i t) (hs : ∀ w ∈ s.stack, w.toNat ≤ 0x1000)
    (hlo : 2 ≤ s.pc.toNat) (hhi : s.pc.toNat ≤ 0x1000) : t.pc.toNat ≤ 0x10FE := by
  have hrewind : (s.pc - 2).toNat ≤ 0x10FE := by bv_omega
  cases h
  case returns hpos =>
    have := hs _ (Vector.getElem_mem (xs := s.stack) (i := s.sp.val - 1) (by omega))
    exact this.trans (by decide)
  case calls nnn _ =>
    have := nnn.isLt
    rw [addrOperand_toNat]; omega
  case jumps hw => exact jumpTarget_le hw
  case skips taken =>
    rw [State.setPc_pc]
    split <;> bv_omega
  case waits | latches => exact hrewind
  all_goals exact hhi.trans (by decide)

/-- A key wait that leaves a key latched stays where it is. -/
theorem execLdVxK_of_latched {x : Reg} {s t : State} {k : Key} (h : execLdVxK x s = .next t) (hk : t.wait = .keyLatched k) :
    t = { s with wait := .keyLatched k, pc := s.pc - 2 } := by
  obtain ⟨hidle, _, heq⟩ | ⟨j, _, _, _, heq⟩ | ⟨j, hj, _, heq⟩ | ⟨_, _, _, heq⟩ := execLdVxK_cases x s <;>
    cases heq.symm.trans h
  · cases hidle.symm.trans hk
  · cases hk; rfl
  · rw [← hk]; rfl
  · cases hk

/-! ## The cycle and the step -/

theorem fetchWord_eq_some {s : State} {w : Word} (h : fetchWord s = some w) : s.pc.toNat ≤ 4094 := (Memory.readWord_some h).1

/-- The instruction at `PC` is the key wait while a key is latched. -/
theorem State.LatchedAtKeyWait.decode_eq {s : State} (hs : s.LatchedAtKeyWait) {k : Key} (hk : s.wait = .keyLatched k) {w : Word}
    (hw : fetchWord s = some w) (aliases : Bool) : ∃ x, decode aliases w = .ldVxK x := by
  obtain ⟨_, w', hw', hwait⟩ := hs k hk
  obtain rfl := Option.some.inj (hw.symm.trans hw')
  exact (isKeyWait_iff_decode aliases w).1 hwait

/-- An executed instruction leaves a key latched only as an FX0A that has rewound `PC` to itself. -/
theorem exec_keeps_latched {s t : State} {w : Word} (hs : s.LatchedAtKeyWait) (hrun : s.status = .running)
    (hw : fetchWord s = some w) (ht : exec (decode s.cfg.decodeAliases w) s.afterFetch = .next t) : t.LatchedAtKeyWait := by
  intro k hk
  obtain ⟨x, hx⟩ : ∃ x, decode s.cfg.decodeAliases w = .ldVxK x := by
    by_cases hwait : t.wait = s.afterFetch.wait
    · exact hs.decode_eq (hwait ▸ hk) hw _
    · obtain ⟨_, _, _, hwriter, _⟩ := timersIndexAndWaitHaveTheirWriters _ _ _ ht
      exact hwriter hwait
  have hkeyWait : isKeyWait w = true := (isKeyWait_iff_decode _ w).2 ⟨x, hx⟩
  rw [hx] at ht
  have hback : s.pc + 2 - 2 = s.pc := BitVec.add_sub_cancel s.pc 2
  rw [execLdVxK_of_latched ht hk]
  refine ⟨hrun, w, ?_, hkeyWait⟩
  simp only [fetchWord, State.afterFetch_mem, State.afterFetch_pc, hback]
  exact hw

theorem cycle_keeps_invariant {s t : State} (hs : Invariant s) (ht : cycle s = .next t) : Invariant t := by
  cases hstatus : s.status with
  | halted err =>
    rw [cycle_of_halted hstatus] at ht
    cases ht
    exact ⟨hs.cfg_wf, hs.mem_wf, hs.shape, hs.stack_le, hs.pc_le, hs.latched⟩
  | running =>
    cases hw : fetchWord s with
    | none =>
      simp only [cycle, hstatus, hw] at ht
      cases ht
      refine ⟨hs.cfg_wf, hs.mem_wf, hs.shape, hs.stack_le, hs.pc_le, fun k hk => ?_⟩
      obtain ⟨_, w, hw', _⟩ := hs.latched k hk
      cases hw.symm.trans hw'
    | some w =>
      rw [cycle_of_fetched hstatus hw] at ht
      have heff := exec_effect ht
      have hpc := fetchWord_eq_some hw
      have hlo : 2 ≤ s.afterFetch.pc.toNat := by rw [State.afterFetch_pc]; bv_omega
      have hhi : s.afterFetch.pc.toNat ≤ 0x1000 := by rw [State.afterFetch_pc]; bv_omega
      exact ⟨heff.cfg_eq ▸ hs.cfg_wf, heff.mem_wf hs.mem_wf, heff.shape hs.shape, heff.stack_le hs.stack_le hhi,
        heff.pc_le hs.stack_le hlo hhi, exec_keeps_latched hs.latched hstatus hw ht⟩

/-- Settles O52: a cycle by `cycle_keeps_invariant`; the other events and the schedule name no field the invariant speaks of. -/
theorem everyStepKeepsTheInvariant : Obligations.EveryStepKeepsTheInvariant := by
  intro s t hs ht
  rw [State.inv_iff] at hs ⊢
  have hdrop : Invariant s.dropEvent := ⟨hs.cfg_wf, hs.mem_wf, hs.shape, hs.stack_le, hs.pc_le, hs.latched⟩
  obtain ⟨_, h⟩ | ⟨_, h⟩ | ⟨_, _, _, h⟩ | ⟨_, h⟩ := step_cases s
  case inl => exact cycle_keeps_invariant hdrop (h.symm.trans ht)
  all_goals
    rw [h] at ht
    cases ht
    exact ⟨hs.cfg_wf, hs.mem_wf, hs.shape, hs.stack_le, hs.pc_le, hs.latched⟩

/-! ## Reset -/

theorem bootMemory_wf (font : Vector Byte 80) {prog : List Byte} (h : prog.length ≤ maxProg) :
    (bootMemory font prog).wf = true := by
  have hend : entryAddr + prog.length ≤ 0x1000 := Nat.add_le_add_left h 0x200
  refine Memory.wf_store prog (Memory.wf_store _ Memory.wf_nil ?_) hend
  rw [Vector.length_toList]; decide

/-- Settles O53: a reset stores in existing memory, blanks the display and latches no key. -/
theorem invariantHoldsAfterReset : Obligations.InvariantHoldsAfterReset := by
  refine ⟨by decide, fun c font prog s hs => ?_⟩
  obtain ⟨hwf, hfits, rfl⟩ := boot_eq_ok_iff.1 hs
  refine (State.inv_iff _).2 ⟨hwf, bootMemory_wf font hfits, gridShape_blank c, fun w hw => ?_,
    (by decide : State.reset.pc.toNat ≤ 0x10FE), nofun⟩
  obtain ⟨_, rfl⟩ := Vector.mem_replicate.1 hw
  decide

/-- The font lies at 0x000 to 0x04F, whatever the image (70_reset_and_hazards.md R231). -/
theorem read_bootMemory_font (font : Vector Byte 80) (prog : List Byte) {k : Nat} (hk : k < 80) :
    font[k]? = some ((bootMemory font prog).read k) := by
  have hlen : k < font.toList.length := by rwa [Vector.length_toList]
  rw [bootMemory, Memory.read_store, if_neg (by rw [entryAddr]; omega), Memory.read_store, if_pos (by omega),
    Nat.sub_zero, List.getD_eq_getElem _ _ hlen, Vector.getElem_toList, Vector.getElem?_eq_getElem hk]

theorem unlisted_of_ge {a : Nat} (h : 80 ≤ a) : Memory.unlisted a = 0 := by
  rw [Memory.unlisted, List.getD_eq_default]
  exact le_trans (by decide) h

/-- Memory outside the font and the image is zero after a reset (10_state.md R35). -/
theorem read_bootMemory_zero (font : Vector Byte 80) {prog : List Byte} {a : Nat} (h80 : 80 ≤ a)
    (h : a < entryAddr ∨ entryAddr + prog.length ≤ a) : (bootMemory font prog).read a = 0 := by
  have hlen : font.toList.length = 80 := Vector.length_toList
  rw [bootMemory, Memory.read_store, if_neg (by omega), Memory.read_store, if_neg (by omega), Memory.read_nil,
    unlisted_of_ge h80]

/-- The default font is what unlisted addresses read as, so storing it lists nothing (20_memory.md R51). -/
theorem bootMemory_default : bootMemory fontParameter [] = [] := by
  have hfont : fontParameter.toList = defaultFont := rfl
  rw [bootMemory, Memory.store, hfont]
  exact Memory.store_nil 0 _ fun k _ => by rw [Nat.zero_add, Memory.unlisted]

/-- Settles O54: the memory by the lemmas on `bootMemory`, every other field is the one `boot` writes out. -/
theorem resetLoadsFontAndProgram : Obligations.ResetLoadsFontAndProgram := by
  refine ⟨fun c font prog hwf hlen => ?_, boot_eq_ok_iff.2 ⟨by decide, by decide, ?_⟩⟩
  · have himage (k : Nat) (hk : k < prog.length) : prog[k]? = some ((bootMemory font prog).read (0x200 + k)) := by
      have := getElem?_eq_read_bootMemory font (Nat.le_add_right entryAddr k) (Nat.add_lt_add_left hk entryAddr)
      rwa [Nat.add_sub_cancel_left] at this
    exact ⟨_, boot_eq_ok_iff.2 ⟨hwf, hlen, rfl⟩, fun k hk => read_bootMemory_font font prog hk,
      fun a h80 ha => read_bootMemory_zero font h80 (.inl ha), himage,
      fun a ha => read_bootMemory_zero font (by omega) (.inr ha), fun r k => pixelAt_blank c r k,
      (by decide : ∀ r, State.reset.reg r = 0), rfl, rfl, rfl, (by decide : ∀ k, k < 16 → State.reset.stack[k]? = some 0), rfl,
      rfl, rfl, (by decide : ∀ k, State.reset.keyHeld k = false), rfl, rfl, rfl, rfl⟩
  · rw [bootMemory_default]; rfl

end Sys2Proof.Machine
end

section
/-! PROOF. Arithmetic, logic, shift and random instructions, the indexed jump and the glyph address (41_alu.md R123 to R131;
40_control_flow.md R107; 42_index_memory.md R152). -/

namespace Sys2Proof.Machine

/-! ## Logic -/

theorem exec_orReg (x y : Reg) (s : State) : exec (.orReg x y) s = .next (s.setReg x (s.reg x ||| s.reg y)) := rfl

theorem exec_andReg (x y : Reg) (s : State) : exec (.andReg x y) s = .next (s.setReg x (s.reg x &&& s.reg y)) := rfl

theorem exec_xorReg (x y : Reg) (s : State) : exec (.xorReg x y) s = .next (s.setReg x (s.reg x ^^^ s.reg y)) := rfl

/-- Settles O25: each writes `VX` alone, and the byte written has the bits of the operands combined. -/
theorem logicIsBitwiseAndSparesVF : Obligations.LogicIsBitwiseAndSparesVF := by
  intro x y s
  obtain ⟨t, ht, hor, hframe⟩ := exec_writes_one_register (exec_orReg x y s)
  obtain ⟨t', ht', hand, hframe'⟩ := exec_writes_one_register (exec_andReg x y s)
  obtain ⟨t'', ht'', hxor, hframe''⟩ := exec_writes_one_register (exec_xorReg x y s)
  exact ⟨⟨t, ht, fun k => by rw [hor, BitVec.getLsbD_or], hframe⟩,
    ⟨t', ht', fun k => by rw [hand, BitVec.getLsbD_and], hframe'⟩,
    ⟨t'', ht'', fun k => by rw [hxor, BitVec.getLsbD_xor], hframe''⟩⟩

/-! ## A result with a flag -/

/-- An instruction that answers with a flag and a result has the result in `VX`, the flag in VF unless that is `VX`, and changes
no other register and nothing but the registers (70_reset_and_hazards.md R240). -/
theorem exec_writes_flag_and_register {i : Instr} {s : State} {x : Reg} {f b : Byte} {flag result : Nat}
    (h : exec i s = .next (s.setFlagThenReg x f b)) (hf : f.toNat = flag) (hb : b.toNat = result) :
    ∃ t, exec i s = .next t ∧ (t.reg x).toNat = result ∧ (x ≠ VF → (t.reg VF).toNat = flag) ∧
      (∀ r, r ≠ x → r ≠ VF → t.reg r = s.reg r) ∧ t = { s with v := t.v } := by
  refine ⟨_, h, ?_, fun hx => ?_, fun r hx hVF => ?_, rfl⟩
  · rw [State.reg_setFlagThenReg, if_pos rfl, hb]
  · rw [State.reg_setFlagThenReg, if_neg hx.symm, if_pos rfl, hf]
  · rw [State.reg_setFlagThenReg, if_neg hx, if_neg hVF]

theorem carryFlag_toNat (a b : Byte) : (carryFlag a b).toNat = if 255 < a.toNat + b.toNat then 1 else 0 := by
  simp only [carryFlag, flagByte_toNat, decide_eq_true_eq, gt_iff_lt]

theorem noBorrowFlag_toNat (a b : Byte) : (noBorrowFlag a b).toNat = if b.toNat < a.toNat then 1 else 0 := by
  simp only [noBorrowFlag, flagByte_toNat, decide_eq_true_eq, gt_iff_lt]

theorem sub_toNat (a b : Byte) : (a - b).toNat = (a.toNat + 256 - b.toNat) % 256 := by bv_omega

/-- Settles O26: the flag is the carry of the old operands, the result their sum as bytes. -/
theorem addRegistersSetsCarry : Obligations.AddRegistersSetsCarry := fun x y s =>
  exec_writes_flag_and_register (i := .addReg x y) rfl (carryFlag_toNat (s.reg x) (s.reg y))
    (BitVec.toNat_add (s.reg x) (s.reg y))

/-- Settles O27: the flag compares the old operands, the result is their difference as bytes; SUBN takes them the other way. -/
theorem subtractionsSetNoBorrow : Obligations.SubtractionsSetNoBorrow := fun x y s =>
  ⟨exec_writes_flag_and_register (i := .sub x y) rfl (noBorrowFlag_toNat (s.reg x) (s.reg y)) (sub_toNat (s.reg x) (s.reg y)),
    exec_writes_flag_and_register (i := .subn x y) rfl (noBorrowFlag_toNat (s.reg y) (s.reg x)) (sub_toNat (s.reg y) (s.reg x))⟩

theorem lowBitFlag_toNat (a : Byte) : (lowBitFlag a).toNat = a.toNat % 2 := by
  rw [lowBitFlag, flagByte_toNat, BitVec.getLsbD, Nat.testBit_zero]
  simp only [decide_eq_true_eq]
  split <;> omega

theorem highBitFlag_toNat (a : Byte) : (highBitFlag a).toNat = a.toNat / 128 := by
  have := a.isLt
  rw [highBitFlag, flagByte_toNat, BitVec.getLsbD, Nat.testBit_eq_decide_div_mod_eq]
  simp only [decide_eq_true_eq]
  split <;> omega

theorem shiftRight_one_toNat (a : Byte) : (a >>> 1).toNat = a.toNat / 2 := by
  rw [BitVec.toNat_ushiftRight, Nat.shiftRight_eq_div_pow, Nat.pow_one]

theorem shiftLeft_one_toNat (a : Byte) : (a <<< 1).toNat = a.toNat * 2 % 256 := by
  rw [BitVec.toNat_shiftLeft, Nat.shiftLeft_eq, Nat.pow_one]

/-- Settles O28: the flag is the bit that falls out, the result the halved or doubled byte, and `Y` stands in neither. -/
theorem shiftsSetTheShiftedBit : Obligations.ShiftsSetTheShiftedBit := fun x y s =>
  ⟨exec_writes_flag_and_register (i := .shr x y) rfl (lowBitFlag_toNat (s.reg x)) (shiftRight_one_toNat (s.reg x)),
    exec_writes_flag_and_register (i := .shl x y) rfl (highBitFlag_toNat (s.reg x)) (shiftLeft_one_toNat (s.reg x))⟩

/-! ## The random byte -/

/-- A masked byte has no bit outside the mask (41_alu.md R131). -/
theorem and_and_not_self (b mask : Byte) : b &&& mask &&& ~~~mask = 0 := by
  rw [BitVec.and_assoc, BitVec.and_not_self]; exact BitVec.and_zero

/-- Settles O29: the drawn byte under the mask is written to `VX` alone, and the draw is counted. -/
theorem randomByteIsMasked : Obligations.RandomByteIsMasked := by
  intro x nn s
  have hreg : (s.setReg x (s.nextRnd &&& nn)).countDraw.reg x = Config.rnd s.draws &&& nn := by
    rw [State.reg_countDraw, State.reg_setReg_self, State.nextRnd]
  refine ⟨_, rfl, fun k => ?_, ?_, rfl, fun r hr => s.reg_setReg_ne _ hr, rfl⟩
  · rw [hreg, BitVec.getLsbD_and]
  · rw [hreg, and_and_not_self]

/-! ## Sums and products of an address -/

/-- The indexed target is a sum of naturals: it stays below 65536 (40_control_flow.md R107). -/
theorem indexedTarget_toNat (s : State) (nnn : Addr) : (indexedTarget s nnn).toNat = nnn.toNat + (s.reg 0).toNat := by
  have := nnn.isLt
  have := (s.reg 0).isLt
  rw [indexedTarget, BitVec.toNat_add, addrOperand_toNat, byteOperand_toNat]; omega

/-- Settles O21: the jump writes its target to `PC` alone. -/
theorem indexedJumpAddsV0 : Obligations.IndexedJumpAddsV0 := fun nnn s =>
  ⟨s.setPc (indexedTarget s nnn), rfl, indexedTarget_toNat s nnn, rfl⟩

theorem glyphAddr_toNat (b : Byte) : (glyphAddr b).toNat = b.toNat * 5 := by
  have := b.isLt
  rw [glyphAddr, BitVec.toNat_mul, byteOperand_toNat, show (5 : Word).toNat = 5 from rfl]; omega

theorem exec_ldF (x : Reg) (s : State) : exec (.ldF x) s = .next (s.setI (glyphAddr (s.reg x))) := rfl

/-- Settles O32: the load writes `I` alone, and five times a byte stays below 65536. -/
theorem glyphAddressIsFiveTimesVX : Obligations.GlyphAddressIsFiveTimesVX := fun x s =>
  glyphAddr_toNat (s.reg x) ▸ exec_writes_index (exec_ldF x s)

end Sys2Proof.Machine
end

section
/-! PROOF. The canonical form of memory, and the instructions that move bytes between registers and memory (20_memory.md R51, R58,
R59; 42_index_memory.md R153 to R155; 95_test_vectors.md S7, S8). -/

namespace Sys2Proof.Machine

/-! ## The canonical form -/

theorem Memory.read_of_mem {m : Memory} (h : m.Pairwise fun e f => e.1 < f.1) {e : Host.Cell} (he : e ∈ m) :
    m.read e.1 = e.2 := by
  induction m with
  | nil => cases he
  | cons f m ih =>
    obtain ⟨hfirst, hrest⟩ := List.pairwise_cons.1 h
    rw [Memory.read_cons]
    obtain rfl | he := List.mem_cons.1 he
    · rw [if_pos rfl]
    · rw [if_neg (hfirst e he).ne, ih hrest he]

theorem Memory.read_of_not_listed {m : Memory} {a : Nat} (h : ∀ e ∈ m, e.1 ≠ a) : m.read a = Memory.unlisted a := by
  induction m with
  | nil => rfl
  | cons f m ih =>
    rw [Memory.read_cons, if_neg (h f List.mem_cons_self), ih fun e he => h e (List.mem_cons_of_mem f he)]

/-- In canonical form an entry is listed exactly where a read differs from the unlisted byte, and it is what is read. -/
theorem Memory.mem_iff_read {m : Memory} (h : m.wf = true) (e : Host.Cell) :
    e ∈ m ↔ m.read e.1 = e.2 ∧ e.2 ≠ Memory.unlisted e.1 := by
  obtain ⟨hrising, hentries⟩ := m.wf_iff.1 h
  constructor
  · intro he
    obtain ⟨_, hne⟩ := hentries e he
    exact ⟨Memory.read_of_mem hrising he, hne⟩
  · rintro ⟨hread, hne⟩
    by_contra hout
    refine hne (hread ▸ Memory.read_of_not_listed fun f hf haddr => hout ?_)
    have hval : f.2 = e.2 := by rw [← Memory.read_of_mem hrising hf, haddr, hread]
    exact Prod.ext haddr hval ▸ hf

/-- Settles O9: the reads say which entries are listed (`Memory.mem_iff_read`), and their addresses rise, so the lists are one. -/
theorem canonicalMemoriesReadingAlikeAreEqual : Obligations.CanonicalMemoriesReadingAlikeAreEqual := by
  intro m m' h h' hread
  obtain ⟨hrising, -⟩ := m.wf_iff.1 h
  obtain ⟨hrising', -⟩ := m'.wf_iff.1 h'
  have hsame (e : Host.Cell) : e ∈ m ↔ e ∈ m' := by rw [Memory.mem_iff_read h, Memory.mem_iff_read h', hread]
  have hperm : m.Perm m' :=
    (List.perm_ext_iff_of_nodup (hrising.imp fun hlt heq => hlt.ne (congrArg Prod.fst heq))
      (hrising'.imp fun hlt heq => hlt.ne (congrArg Prod.fst heq))).2 hsame
  exact hperm.eq_of_pairwise (fun e f _ _ hlt hgt => absurd hlt hgt.asymm) hrising hrising'

/-! ## The words of the three instructions -/

theorem encode_ldB (x : Reg) : encode (.ldB x) = BitVec.ofNat 16 (0xF033 + x.val * 0x100) := by
  rw [encode, encodeX]; congr 1; omega

theorem encode_stRegs (x : Reg) : encode (.stRegs x) = BitVec.ofNat 16 (0xF055 + x.val * 0x100) := by
  rw [encode, encodeX]; congr 1; omega

theorem encode_ldRegs (x : Reg) : encode (.ldRegs x) = BitVec.ofNat 16 (0xF065 + x.val * 0x100) := by
  rw [encode, encodeX]; congr 1; omega

/-! ## Their outcomes in and out of range -/

theorem exec_ldB_in_range {x : Reg} {s : State} (h : s.i.toNat + 2 ≤ 0xFFF) :
    exec (.ldB x) s = .next (s.setMem (s.mem.store s.i.toNat (decimalDigits (s.reg x)))) := by
  obtain ⟨hout, -⟩ | ⟨-, heq⟩ := execLdB_cases x s
  · omega
  · exact heq

theorem exec_ldB_out_of_range {x : Reg} {s : State} (h : 0xFFF < s.i.toNat + 2) :
    exec (.ldB x) s = .next (s.raiseExec .memOutOfRange (.ldB x)) := by
  obtain ⟨-, heq⟩ | ⟨hin, -⟩ := execLdB_cases x s
  · exact heq
  · omega

theorem exec_stRegs_in_range {x : Reg} {s : State} (h : s.i.toNat + x.val ≤ 0xFFF) :
    exec (.stRegs x) s = .next (s.setMem (s.mem.store s.i.toNat (regsUpTo s x))) := by
  obtain ⟨hout, -⟩ | ⟨-, heq⟩ := execStRegs_cases x s
  · omega
  · exact heq

theorem exec_stRegs_out_of_range {x : Reg} {s : State} (h : 0xFFF < s.i.toNat + x.val) :
    exec (.stRegs x) s = .next (s.raiseExec .memOutOfRange (.stRegs x)) := by
  obtain ⟨-, heq⟩ | ⟨hin, -⟩ := execStRegs_cases x s
  · exact heq
  · omega

/-- The bytes `FX65` loads. -/
def bytesLoaded (s : State) (x : Reg) : List Byte := (List.range (x.val + 1)).map fun k => s.mem.read (s.i.toNat + k)

theorem bytesLoaded_length (s : State) (x : Reg) : (bytesLoaded s x).length = x.val + 1 := by
  rw [bytesLoaded, List.length_map, List.length_range]

theorem bytesLoaded_getD (s : State) {x k : Reg} (h : k ≤ x) :
    (bytesLoaded s x).getD k.val 0 = s.mem.read (s.i.toNat + k.val) := by
  have hlt : k.val < x.val + 1 := Nat.lt_succ_of_le h
  simp [bytesLoaded, List.getD_eq_getElem?_getD, hlt]

theorem exec_ldRegs_in_range {x : Reg} {s : State} (h : s.i.toNat + x.val ≤ 0xFFF) :
    exec (.ldRegs x) s = .next (s.setRegsFrom 0 (bytesLoaded s x)) := by
  obtain ⟨hout, -⟩ | ⟨-, heq⟩ := execLdRegs_cases x s
  · omega
  · exact heq

theorem exec_ldRegs_out_of_range {x : Reg} {s : State} (h : 0xFFF < s.i.toNat + x.val) :
    exec (.ldRegs x) s = .next (s.raiseExec .memOutOfRange (.ldRegs x)) := by
  obtain ⟨-, heq⟩ | ⟨hin, -⟩ := execLdRegs_cases x s
  · exact heq
  · omega

/-! ## What is stored and loaded -/

theorem Memory.read_store_of_lt (m : Memory) (a : Nat) {bs : List Byte} {k : Nat} (h : k < bs.length) :
    (m.store a bs).read (a + k) = bs.getD k 0 := by
  rw [Memory.read_store, if_pos (by omega), Nat.add_sub_cancel_left]

theorem Memory.read_store_outside (m : Memory) {a c : Nat} {bs : List Byte} (h : ¬ (a ≤ c ∧ c < a + bs.length)) :
    (m.store a bs).read c = m.read c := by
  rw [Memory.read_store, if_neg h]

/-- Settles O33: the store by its bytes, which are the three digits; the error by its equation. -/
theorem decimalDigitsAreStored : Obligations.DecimalDigitsAreStored := by
  intro x s
  have hlt := (s.reg x).isLt
  have hbyte {n : Nat} (h : n < 256) : (BitVec.ofNat 8 n).toNat = n := (BitVec.toNat_ofNat n 8).trans (Nat.mod_eq_of_lt h)
  constructor
  · intro h
    have hread {k : Nat} (hk : k < 3) := s.mem.read_store_of_lt s.i.toNat (bs := decimalDigits (s.reg x)) hk
    refine ⟨_, exec_ldB_in_range h, ?_, ?_, ?_, fun a ha => ?_, rfl⟩
    · exact (congrArg BitVec.toNat (hread (k := 0) (by decide))).trans (hbyte (by omega))
    · exact (congrArg BitVec.toNat (hread (k := 1) (by decide))).trans (hbyte (by omega))
    · exact (congrArg BitVec.toNat (hread (k := 2) (by decide))).trans (hbyte (by omega))
    · exact Memory.read_store_outside _ (by rw [decimalDigits_length]; omega)
  · intro h
    rw [exec_ldB_out_of_range h, State.raiseExec_eq, encode_ldB]

/-- A byte of the registers stored is the register's (42_index_memory.md R154). -/
theorem read_store_regsUpTo (s : State) {x r : Reg} (h : r ≤ x) :
    (s.mem.store s.i.toNat (regsUpTo s x)).read (s.i.toNat + r.val) = s.reg r := by
  rw [Memory.read_store_of_lt _ _ (by rw [regsUpTo_length]; exact Nat.lt_succ_of_le h), regsUpTo_getD s x r h]

/-- Settles O34: the store by its bytes, which are the registers; the error by its equation. -/
theorem registersAreStored : Obligations.RegistersAreStored := by
  intro x s
  constructor
  · intro h
    refine ⟨_, exec_stRegs_in_range h, fun r hr => read_store_regsUpTo s hr, fun a ha => ?_, rfl⟩
    exact Memory.read_store_outside _ (by rw [regsUpTo_length]; omega)
  · intro h
    rw [exec_stRegs_out_of_range h, State.raiseExec_eq, encode_stRegs]

/-- A register loaded is the byte of memory at its place (42_index_memory.md R155). -/
theorem reg_setRegsFrom_bytesLoaded (s : State) {x r : Reg} (h : r ≤ x) :
    (s.setRegsFrom 0 (bytesLoaded s x)).reg r = s.mem.read (s.i.toNat + r.val) := by
  have hlt : r.val < x.val + 1 := Nat.lt_succ_of_le h
  rw [State.reg_setRegsFrom, if_pos (by rw [bytesLoaded_length]; omega), Nat.sub_zero, bytesLoaded_getD s h]

/-- Settles O35: the load by its bytes, which are those of memory; the error by its equation. -/
theorem registersAreLoaded : Obligations.RegistersAreLoaded := by
  intro x s
  constructor
  · intro h
    refine ⟨_, exec_ldRegs_in_range h, fun r hr => reg_setRegsFrom_bytesLoaded s hr, fun r hr => ?_,
      State.setRegsFrom_frame ..⟩
    have hgt : x.val < r.val := hr
    rw [State.reg_setRegsFrom, if_neg (by rw [bytesLoaded_length]; omega)]
  · intro h
    rw [exec_ldRegs_out_of_range h, State.raiseExec_eq, encode_ldRegs]

/-- Settles O36: the load reads the bytes the store has put at the same addresses. -/
theorem storedRegistersLoadAgain : Obligations.StoredRegistersLoadAgain := by
  intro x s t u h ht hmem hi
  cases (exec_stRegs_in_range h).symm.trans ht
  refine ⟨_, exec_ldRegs_in_range (by rwa [hi]), fun k hk => ?_⟩
  rw [reg_setRegsFrom_bytesLoaded u hk, hmem, hi]
  exact read_store_regsUpTo s hk

/-! ## Call and return -/

/-- Settles O17: the slot the return reads is the one the call has written. -/
theorem returnAfterCallResumes : Obligations.ReturnAfterCallResumes := by
  intro nnn s t u h ht hstack hsp
  cases (exec_call_of_lt nnn h).symm.trans ht
  have hpos : u.sp.val = s.sp.val + 1 := congrArg Fin.val hsp
  refine ⟨_, exec_ret_of_pos (by omega), ?_, Fin.ext ?_⟩
  · simp [hstack, hpos, Vector.get_eq_getElem]
  · simp [hpos]

end Sys2Proof.Machine
end

section
/-! PROOF. The display instructions: the clear, what a draw leaves in each cell and in VF, and that nothing else writes the
display (43_display.md R170 to R172). -/

namespace Sys2Proof.Machine

/-! ## The clear -/

/-- Settles O37: the grid written is the blank one. -/
theorem clearBlanksTheDisplay : Obligations.ClearBlanksTheDisplay := by
  intro s
  obtain ⟨hheight, hwidth⟩ := gridShape_blank s.cfg
  exact ⟨s.showGrid (blankGrid s.cfg), rfl, hheight, hwidth, pixelAt_blank s.cfg, rfl, rfl, rfl⟩

/-! ## The draw in and out of range -/

theorem exec_drw_in_range {x y : Reg} {n : Fin 16} {s : State}
    (h : rowsDrawn s y n = 0 ∨ s.i.toNat + rowsDrawn s y n - 1 ≤ 0xFFF) : exec (.drw x y n) s =
      .next ((s.showGrid (drawnCanvas x y n s).1).setReg VF (flagByte (drawnCanvas x y n s).2)) := by
  obtain ⟨_, _, -⟩ | ⟨-, heq⟩ := execDrw_cases x y n s
  · omega
  · exact heq

theorem exec_drw_out_of_range {x y : Reg} {n : Fin 16} {s : State} (hrows : 1 ≤ rowsDrawn s y n)
    (h : 0xFFF < s.i.toNat + rowsDrawn s y n - 1) :
    exec (.drw x y n) s = .next (s.raiseExec .memOutOfRange (.drw x y n)) := by
  obtain ⟨-, -, heq⟩ | ⟨_, -⟩ := execDrw_cases x y n s
  · exact heq
  · omega

/-- Settles O39: the word of the error record is the draw's own. -/
theorem drawPastMemoryIsFatal : Obligations.DrawPastMemoryIsFatal := by
  rintro x y n s rows rfl hrows hrange
  exact exec_drw_out_of_range hrows hrange

/-! ## The sprite bit over a cell -/

/-- The bit a draw XORs into a cell. -/
def spriteBit (x y : Reg) (n : Fin 16) (s : State) (r c : Nat) : Bool :=
  spriteAt s.cfg.width (startColumn s x) (startRow s y) (spriteRows s y n) r c

/-- The bit is read from the row's byte, and it is 0 outside the clipped rectangle (43_display.md R171 items 2, 5). -/
theorem spriteBit_eq (x y : Reg) (n : Fin 16) (s : State) (r c : Nat) : spriteBit x y n s r c =
    (decide (startRow s y ≤ r ∧ r < startRow s y + rowsDrawn s y n ∧ startColumn s x ≤ c ∧ c < startColumn s x + 8 ∧
        c < s.cfg.width) &&
      (s.mem.read (s.i.toNat + (r - startRow s y))).getLsbD (7 - (c - startColumn s x))) := by
  rw [spriteBit, spriteAt, spriteRows_length]
  by_cases hin : startRow s y ≤ r ∧ r < startRow s y + rowsDrawn s y n ∧ startColumn s x ≤ c ∧ c < startColumn s x + 8 ∧
      c < s.cfg.width
  · have hrow : r - startRow s y < rowsDrawn s y n := by omega
    simp [spriteRows, List.getD_eq_getElem?_getD, hrow]
  · rw [decide_eq_false hin, Bool.false_and, Bool.false_and]

theorem spriteBit_eq_true {x y : Reg} {n : Fin 16} {s : State} {r c : Nat} : spriteBit x y n s r c = true ↔
    (startRow s y ≤ r ∧ r < startRow s y + rowsDrawn s y n ∧ startColumn s x ≤ c ∧ c < startColumn s x + 8 ∧
      c < s.cfg.width) ∧
      (s.mem.read (s.i.toNat + (r - startRow s y))).getLsbD (7 - (c - startColumn s x)) = true := by
  rw [spriteBit_eq, Bool.and_eq_true, decide_eq_true_eq]

/-- A sprite without rows draws nothing and covers no cell (the spec's D14). -/
theorem drawnCanvas_of_no_rows {x y : Reg} {n : Fin 16} {s : State} (h : rowsDrawn s y n = 0) :
    drawnCanvas x y n s = (s.disp, false) ∧ ∀ r c, spriteBit x y n s r c = false := by
  refine ⟨by rw [drawnCanvas, spriteRows, h]; rfl, fun r c => ?_⟩
  rw [← Bool.not_eq_true, spriteBit_eq_true]
  omega

section Drawn

variable {s : State} (hs : gridShape s.cfg.height s.cfg.width s.disp)
include hs

/-- Each cell after a draw is the cell before XOR the sprite bit over it. -/
theorem pixelAt_drawnCanvas (x y : Reg) (n : Fin 16) (r c : Nat) :
    pixelAt (drawnCanvas x y n s).1 r c = (s.pixel r c ^^ spriteBit x y n s r c) := by
  by_cases hrows : rowsDrawn s y n = 0
  · obtain ⟨hcanvas, hbit⟩ := drawnCanvas_of_no_rows (x := x) hrows
    rw [hcanvas, hbit, Bool.xor_false]; rfl
  · exact drawRows_pixel _ _ _ (s.disp, false) (by rw [spriteRows_length]; exact rowsDrawn_le s y n hrows) hs r c

/-- A draw collides exactly when a sprite bit was 1 over a cell that was 1. -/
theorem drawnCanvas_collides (x y : Reg) (n : Fin 16) :
    (drawnCanvas x y n s).2 = true ↔ ∃ r c, spriteBit x y n s r c = true ∧ s.pixel r c = true := by
  by_cases hrows : rowsDrawn s y n = 0
  · obtain ⟨hcanvas, hbit⟩ := drawnCanvas_of_no_rows (x := x) hrows
    rw [hcanvas]
    exact iff_of_false nofun fun ⟨r, c, h, _⟩ => by rw [hbit] at h; cases h
  · refine (drawRows_collision _ _ _ (s.disp, false) (by rw [spriteRows_length]; exact rowsDrawn_le s y n hrows) hs).trans ?_
    exact or_iff_right nofun

end Drawn

theorem flagByte_eq_one_iff (b : Bool) : flagByte b = 1 ↔ b = true := by cases b <;> decide

theorem flagByte_eq_one_or_zero (b : Bool) : flagByte b = 1 ∨ flagByte b = 0 := by cases b <;> decide

/-! ## The statements -/

/-- Settles O38: the draw is in range, its cells are those of `pixelAt_drawnCanvas` and its flag is `drawnCanvas_collides`. -/
theorem drawXorsAndClips : Obligations.DrawXorsAndClips := by
  rintro x y n s hgrid x0 y0 rows rfl rfl rfl hrange
  have hs := s.gridWf_iff.1 hgrid
  have hVF : State.reg ((s.showGrid (drawnCanvas x y n s).1).setReg VF (flagByte (drawnCanvas x y n s).2)) VF =
      flagByte (drawnCanvas x y n s).2 := State.reg_setReg_self ..
  refine ⟨_, exec_drw_in_range hrange, fun r c => ?_, ?_, ?_, fun r hr => State.reg_setReg_ne _ _ hr, rfl, rfl, rfl⟩
  · exact (pixelAt_drawnCanvas hs x y n r c).trans (by rw [spriteBit_eq]; rfl)
  · rw [hVF]; exact flagByte_eq_one_or_zero _
  · rw [hVF, flagByte_eq_one_iff, drawnCanvas_collides hs]
    simp only [spriteBit_eq_true, and_assoc]; rfl

/-- Settles O40: the sprite bits are those of the first draw, so the second XOR undoes it, and a bit lay over a 1 of the display
between the draws exactly where it was put over a 0. -/
theorem drawingTwiceRestoresTheDisplay : Obligations.DrawingTwiceRestoresTheDisplay := by
  intro x y n s t u hgrid hrun ht htrun hdisp hcfg hmem hi hx hy
  have hs := s.gridWf_iff.1 hgrid
  have htu (r c : Nat) : t.pixel r c = u.pixel r c := by rw [State.pixel, State.pixel, hdisp]
  obtain ⟨_, _, heq⟩ | ⟨hrange, heq⟩ := execDrw_cases x y n s <;> cases heq.symm.trans ht
  · cases htrun
  have hcolumn : startColumn u x = startColumn s x := by rw [startColumn, startColumn, hx, hcfg]
  have hrow : startRow u y = startRow s y := by rw [startRow, startRow, hy, hcfg]
  have hrows : rowsDrawn u y n = rowsDrawn s y n := by rw [rowsDrawn, rowsDrawn, hrow, hcfg]
  have hsprite : spriteRows u y n = spriteRows s y n := by rw [spriteRows, spriteRows, hrows, hmem, hi]
  have hbit (r c : Nat) : spriteBit x y n u r c = spriteBit x y n s r c := by
    rw [spriteBit, spriteBit, hcfg, hcolumn, hrow, hsprite]
  have hpixel (r c : Nat) : u.pixel r c = (s.pixel r c ^^ spriteBit x y n s r c) := by
    rw [State.pixel, hdisp]; exact pixelAt_drawnCanvas hs x y n r c
  have hu : gridShape u.cfg.height u.cfg.width u.disp := by
    rw [hcfg, hdisp]; exact drawRows_shape _ _ _ _ hs
  refine ⟨_, exec_drw_in_range (s := u) (by rw [hrows, hi]; omega), fun r c => ?_, ?_⟩
  · refine (pixelAt_drawnCanvas hu x y n r c).trans ?_
    rw [hbit, hpixel, Bool.xor_assoc, Bool.xor_self, Bool.xor_false]
  · rw [State.reg_setReg_self, flagByte_eq_one_iff, drawnCanvas_collides hu]
    refine exists_congr fun r => exists_congr fun c => ?_
    rw [htu, hbit, hpixel]
    cases s.pixel r c <;> cases spriteBit x y n s r c <;> decide

/-- Of the effects only the clear and the draw name the display and its two marks (10_state.md R34). -/
theorem Effect.display_eq {s t : State} {i : Instr} (h : Effect s i t) :
    t = { t with disp := s.disp, dirty := s.dirty, displayChanged := s.displayChanged } ∨ i = .cls ∨
      ∃ x y n, i = .drw x y n := by
  cases h
  case clears => exact .inr (.inl rfl)
  case draws x y n => exact .inr (.inr ⟨x, y, n, rfl⟩)
  all_goals exact .inl rfl

/-- Settles O41: the effects say who writes the display; a cell that a draw changes has a sprite bit over it, which lies in the
clipped rectangle. -/
theorem onlyClearAndDrawWriteTheDisplay : Obligations.OnlyClearAndDrawWriteTheDisplay := by
  intro i s t h
  refine ⟨(exec_effect h).display_eq, ?_⟩
  rintro x y n rfl hgrid r c hne
  have hbit : spriteBit x y n s r c = true := by
    obtain ⟨_, _, heq⟩ | ⟨_, heq⟩ := execDrw_cases x y n s <;> cases heq.symm.trans h
    · exact absurd rfl hne
    · refine Bool.of_not_eq_false fun hzero => hne ?_
      refine (pixelAt_drawnCanvas (s.gridWf_iff.1 hgrid) x y n r c).trans ?_
      rw [hzero, Bool.xor_false]
  obtain ⟨⟨hlo, hhi, hleft, hright, hwidth⟩, -⟩ := spriteBit_eq_true.1 hbit
  have hrows : rowsDrawn s y n = min n.val (s.cfg.height - startRow s y) := rfl
  have hbottom : r < min (startRow s y + n.val) s.cfg.height := by omega
  exact ⟨hlo, hbottom, hleft, lt_min hright hwidth⟩

end Sys2Proof.Machine
end

section
/-! PROOF. The keypad: the skips on a key, the key wait, and that no other instruction reads a key flag (44_keypad_timers.md R180
to R184; 10_state.md R30). -/

namespace Sys2Proof.Machine

/-! ## The skips on a key -/

theorem exec_skp_of_key {x : Reg} {s : State} {k : Key} (hk : (s.reg x).toNat = k.val) :
    exec (.skp x) s = .next (s.setPc (if s.keyHeld k = true then s.pc + 2 else s.pc)) := by
  obtain ⟨hbad, -⟩ | ⟨j, hj, heq⟩ := execSkp_cases x s
  · omega
  · obtain rfl : j = k := Fin.ext (hj.symm.trans hk)
    exact heq

theorem exec_sknp_of_key {x : Reg} {s : State} {k : Key} (hk : (s.reg x).toNat = k.val) :
    exec (.sknp x) s = .next (s.setPc (if s.keyHeld k = true then s.pc else s.pc + 2)) := by
  obtain ⟨hbad, -⟩ | ⟨j, hj, heq⟩ := execSknp_cases x s
  · omega
  · obtain rfl : j = k := Fin.ext (hj.symm.trans hk)
    refine heq.trans ?_
    cases s.keyHeld j <;> rfl

theorem exec_skp_of_bad_key {x : Reg} {s : State} (h : 15 < (s.reg x).toNat) :
    exec (.skp x) s = .next (s.raiseExec .badKeyIndex (.skp x)) := by
  obtain ⟨-, heq⟩ | ⟨j, hj, -⟩ := execSkp_cases x s
  · exact heq
  · omega

theorem exec_sknp_of_bad_key {x : Reg} {s : State} (h : 15 < (s.reg x).toNat) :
    exec (.sknp x) s = .next (s.raiseExec .badKeyIndex (.sknp x)) := by
  obtain ⟨-, heq⟩ | ⟨j, hj, -⟩ := execSknp_cases x s
  · exact heq
  · omega

theorem encode_skp (x : Reg) : encode (.skp x) = BitVec.ofNat 16 (0xE09E + x.val * 0x100) := by
  rw [encode, encodeX]; congr 1; omega

theorem encode_sknp (x : Reg) : encode (.sknp x) = BitVec.ofNat 16 (0xE0A1 + x.val * 0x100) := by
  rw [encode, encodeX]; congr 1; omega

/-- Settles O42: each outcome by its equation. -/
theorem keySkips : Obligations.KeySkips := by
  refine fun x s => ⟨fun k hk => ⟨⟨_, exec_skp_of_key hk, rfl, rfl⟩, ⟨_, exec_sknp_of_key hk, rfl, rfl⟩⟩, fun hbad => ⟨?_, ?_⟩⟩
  · rw [exec_skp_of_bad_key hbad, State.raiseExec_eq, encode_skp]
  · rw [exec_sknp_of_bad_key hbad, State.raiseExec_eq, encode_sknp]

/-! ## The key wait -/

/-- The scan finds the key that is held with no lower one held. -/
theorem lowestHeld_of_held {s : State} {k : Key} (hheld : s.keyHeld k = true) (hlower : ∀ j, j < k → s.keyHeld j = false) :
    lowestHeld s = some k := by
  cases hscan : lowestHeld s with
  | none => exact absurd hheld (by rw [lowestHeld_none.1 hscan k]; decide)
  | some j =>
    obtain ⟨hj, hjlower⟩ := lowestHeld_some hscan
    obtain hlt | rfl | hgt := lt_trichotomy j k
    · exact absurd hj (by rw [hlower j hlt]; decide)
    · rfl
    · exact absurd hheld (by rw [hjlower k hgt]; decide)

theorem exec_ldVxK_of_no_key {x : Reg} {s : State} (hidle : s.wait = .idle) (hnone : ∀ k, s.keyHeld k = false) :
    exec (.ldVxK x) s = .next s.rewindPc := by
  simp only [exec, execLdVxK, hidle, lowestHeld_none.2 hnone]

theorem exec_ldVxK_of_key {x : Reg} {s : State} {k : Key} (hidle : s.wait = .idle) (hheld : s.keyHeld k = true)
    (hlower : ∀ j, j < k → s.keyHeld j = false) : exec (.ldVxK x) s = .next (s.setWait (.keyLatched k)).rewindPc := by
  simp only [exec, execLdVxK, hidle, lowestHeld_of_held hheld hlower]

theorem exec_ldVxK_of_held {x : Reg} {s : State} {k : Key} (hwait : s.wait = .keyLatched k) (hheld : s.keyHeld k = true) :
    exec (.ldVxK x) s = .next s.rewindPc := by
  simp only [exec, execLdVxK, hwait, if_pos hheld]

theorem exec_ldVxK_of_released {x : Reg} {s : State} {k : Key} (hwait : s.wait = .keyLatched k)
    (hheld : s.keyHeld k = false) : exec (.ldVxK x) s = .next ((s.setReg x (BitVec.ofNat 8 k.val)).setWait .idle) := by
  simp only [exec, execLdVxK, hwait, hheld, Bool.false_eq_true, if_false]

/-- Settles O43: each case by its equation; a key index is its own byte. -/
theorem keyWaitLatchesThenDelivers : Obligations.KeyWaitLatchesThenDelivers := by
  refine fun x s => ⟨exec_ldVxK_of_no_key, fun k => exec_ldVxK_of_key, fun k => exec_ldVxK_of_held,
    fun k hwait hheld => ⟨_, exec_ldVxK_of_released hwait hheld, ?_, fun r hr => ?_, rfl, rfl⟩⟩
  · rw [State.reg_setWait, State.reg_setReg_self, BitVec.toNat_ofNat]; omega
  · rw [State.reg_setWait, State.reg_setReg_ne _ _ hr]

/-! ## The other instructions do not read the keypad -/

theorem skipIf_keys (s : State) (c : Bool) (ks : Vector Bool 16) :
    State.skipIf { s with keys := ks } c = { s.skipIf c with keys := ks } := by cases c <;> rfl

theorem setRegsFrom_keys (s : State) (k : Nat) (bs : List Byte) (ks : Vector Bool 16) :
    State.setRegsFrom { s with keys := ks } k bs = { s.setRegsFrom k bs with keys := ks } := by
  induction bs generalizing s k with
  | nil => rfl
  | cons b bs ih =>
    simp only [State.setRegsFrom]
    split
    next h => exact ih (s.setReg ⟨k, h⟩ b) _
    next => exact ih s _

/-- Settles O47: an instruction with two outcomes picks the same one, since its condition is on `SP`, `I` and the registers; the
skips and the loads keep the flags they are given. -/
theorem onlyKeyInstructionsSeeTheKeypad : Obligations.OnlyKeyInstructionsSeeTheKeypad := by
  intro i s t ks hi h
  cases i
  case skp x => obtain ⟨hne, -, -⟩ := hi x; exact absurd rfl hne
  case sknp x => obtain ⟨-, hne, -⟩ := hi x; exact absurd rfl hne
  case ldVxK x => obtain ⟨-, -, hne⟩ := hi x; exact absurd rfl hne
  case ret =>
    obtain ⟨h0, heq⟩ | ⟨hpos, heq⟩ := execRet_cases s <;> cases heq.symm.trans h
    · exact exec_ret_of_empty (s := { s with keys := ks }) h0
    · exact exec_ret_of_pos (s := { s with keys := ks }) hpos
  case call nnn =>
    obtain ⟨h16, heq⟩ | ⟨hlt, heq⟩ := execCall_cases nnn s <;> cases heq.symm.trans h
    · exact exec_call_of_full nnn (s := { s with keys := ks }) h16
    · exact exec_call_of_lt nnn (s := { s with keys := ks }) hlt
  case drw x y n =>
    obtain ⟨hrows, hrange, heq⟩ | ⟨hrange, heq⟩ := execDrw_cases x y n s <;> cases heq.symm.trans h
    · exact exec_drw_out_of_range (s := { s with keys := ks }) hrows (Nat.le_sub_one_of_lt hrange)
    · exact exec_drw_in_range (s := { s with keys := ks }) (hrange.imp_right (Nat.sub_le_sub_right · 1))
  case ldB x =>
    obtain ⟨hrange, heq⟩ | ⟨hrange, heq⟩ := execLdB_cases x s <;> cases heq.symm.trans h
    · exact exec_ldB_out_of_range (s := { s with keys := ks }) (Nat.le_of_lt_succ hrange)
    · exact exec_ldB_in_range (s := { s with keys := ks }) (Nat.le_of_succ_le_succ hrange)
  case stRegs x =>
    obtain ⟨hrange, heq⟩ | ⟨hrange, heq⟩ := execStRegs_cases x s <;> cases heq.symm.trans h
    · exact exec_stRegs_out_of_range (s := { s with keys := ks }) (Nat.le_of_lt_succ hrange)
    · exact exec_stRegs_in_range (s := { s with keys := ks }) (Nat.le_of_succ_le_succ hrange)
  case ldRegs x =>
    obtain ⟨hrange, heq⟩ | ⟨hrange, heq⟩ := execLdRegs_cases x s <;> cases heq.symm.trans h
    · exact exec_ldRegs_out_of_range (s := { s with keys := ks }) (Nat.le_of_lt_succ hrange)
    · refine (exec_ldRegs_in_range (s := { s with keys := ks }) (Nat.le_of_succ_le_succ hrange)).trans ?_
      rw [setRegsFrom_keys]; rfl
  case seImm | sneImm | seReg | sneReg => cases h; exact congrArg Host.Outcome.next (skipIf_keys ..)
  all_goals cases h; rfl

end Sys2Proof.Machine
end
